-- ==== Sys2Proof/Word.lean ====
section
/-! DEFINITION. The three widths of the spec (00_scope.md R8): `u8`, `u16` and `u32`. -/

namespace Sys2Proof

/-- `u8`: one byte of an instruction, of the program buffer or of memory. -/
abbrev Byte := BitVec 8

/-- `u16`: a register, a literal, a data address or a program offset. -/
abbrev Word := BitVec 16

/-- `u32`: the integer form of an instruction (30_encoding.md R62). -/
abbrev U32 := BitVec 32

end Sys2Proof
end

