-- ==== Sys2Proof/Machine/Flags.lean ====
section
/-! DEFINITION. The ALU's one operation (43_arithmetic.md R101, R102). The block has no flags and no condition codes:
no carry and no overflow is recorded anywhere (10_state.md R22), so there is no flag computation to define; the register
named `fl` is plain storage (R17). -/

namespace Sys2Proof.Machine

/-- 16-bit addition modulo 65536: the exact sum, narrowed; the carry out of bit 15 is discarded (43_arithmetic.md
R101). -/
def addWrap (a b : Word) : Word := BitVec.ofNat 16 ((a.toNat + b.toNat) % 65536)

end Sys2Proof.Machine
end

