-- ==== Sys2Proof/Syntax.lean ====
section
/-! DEFINITION. The syntax: registers, opcodes, shapes, the raw 4-byte record, the instructions (one constructor per
row of spec/opcode_table.json) and the operand forms a caller hands to the encoder. -/

namespace Sys2Proof

/-- The 16 registers, in the order of 10_state.md R13 (register number = position, from 0). -/
inductive Reg where
  | pc | ac | sp | fp | im | mb | ps | fl
  | r0 | r1 | r2 | r3 | r4 | r5 | r6 | r7
  deriving DecidableEq, Repr

/-- The closed enumeration of seven opcodes (30_encoding.md R69). -/
inductive Opcode where
  | nop | hlt | movLitReg | movRegReg | movRegMem | movMemReg | addRegReg
  deriving DecidableEq, Repr

/-- The four ways an instruction's argument bytes are read (30_encoding.md R63). -/
inductive Shape where
  | n | bbb | bw | wb
  deriving DecidableEq, Repr

/-- An instruction as the program buffer holds it: the opcode byte and the three argument bytes (30_encoding.md R61). -/
structure Record where
  opcode : Byte
  arg0 : Byte
  arg1 : Byte
  arg2 : Byte
  deriving DecidableEq, Repr

/-- The seven instructions, one constructor per row of the opcode table, operands in the order of 30_encoding.md R67.
A register operand is the whole byte of its slot (R65): the dispatch, not the decoder, checks it (R68, R78). An unused
slot is kept as the decoder keeps it (R73), the lowest slot in the low bits; execution ignores it. Log entry 10. -/
inductive Instr where
  /-- 41_control.md R92. -/
  | nop (unused : BitVec 24)
  /-- 41_control.md R93. -/
  | hlt (unused : BitVec 24)
  /-- 42_data_movement.md R95: copy the literal `imm` into `rd`. -/
  | movLitReg (imm : Word) (rd : Byte)
  /-- 42_data_movement.md R96: copy `rs` into `rd`. -/
  | movRegReg (rs rd : Byte) (unused : Byte)
  /-- 42_data_movement.md R97: store `rs` at `addr`. -/
  | movRegMem (rs : Byte) (addr : Word)
  /-- 42_data_movement.md R98: load `rd` from `addr`. -/
  | movMemReg (addr : Word) (rd : Byte)
  /-- 43_arithmetic.md R100: `ac` becomes the sum of `ra` and `rb`. -/
  | addRegReg (ra rb : Byte) (unused : Byte)
  deriving DecidableEq, Repr

/-- What a caller hands the encoder beside the opcode: one of the four construction forms of 30_encoding.md R70, with
register operands as plain numbers and words as integers, so that a number out of range can be written and refused. -/
inductive CallForm where
  /-- opcode only -/
  | n
  /-- byte operands (the third slot of the shape is unused in every opcode of R67) -/
  | bbb (a b : Nat)
  /-- byte, then word -/
  | bw (a : Nat) (w : Int)
  /-- word, then byte -/
  | wb (w : Int) (a : Nat)
  deriving DecidableEq, Repr

/-- The opcode of an instruction. -/
def Instr.opcode : Instr → Opcode
  | .nop _ => .nop
  | .hlt _ => .hlt
  | .movLitReg _ _ => .movLitReg
  | .movRegReg _ _ _ => .movRegReg
  | .movRegMem _ _ => .movRegMem
  | .movMemReg _ _ => .movMemReg
  | .addRegReg _ _ _ => .addRegReg

/-- The register operand fields of an instruction, in slot order (30_encoding.md R67). -/
def Instr.regFields : Instr → List Byte
  | .nop _ => []
  | .hlt _ => []
  | .movLitReg _ rd => [rd]
  | .movRegReg rs rd _ => [rs, rd]
  | .movRegMem rs _ => [rs]
  | .movMemReg _ rd => [rd]
  | .addRegReg ra rb _ => [ra, rb]

/-- The same instruction with zero in its unused slots (30_encoding.md R73). -/
def Instr.clearUnused : Instr → Instr
  | .nop _ => .nop 0
  | .hlt _ => .hlt 0
  | .movLitReg imm rd => .movLitReg imm rd
  | .movRegReg rs rd _ => .movRegReg rs rd 0
  | .movRegMem rs addr => .movRegMem rs addr
  | .movMemReg addr rd => .movMemReg addr rd
  | .addRegReg ra rb _ => .addRegReg ra rb 0

/-- The shape of a construction form (30_encoding.md R70). -/
def CallForm.shape : CallForm → Shape
  | .n => .n
  | .bbb _ _ => .bbb
  | .bw _ _ => .bw
  | .wb _ _ => .wb

end Sys2Proof
end

