-- ==== Sys2Proof/WellFormed.lean ====
section
/-! DEFINITION. Well-formed instructions: what the encoder may produce (30_encoding.md R63, R65, R70). An instruction
that is not well formed can still be fetched: a register field of 16 or more faults when executed (R72(b)), an unused
slot that is not zero is ignored (R73). -/

namespace Sys2Proof

/-- Every register operand field names a register: it is at most 15 (30_encoding.md R65). -/
def Instr.regsOk (i : Instr) : Bool := i.regFields.all fun b => decide (b.toNat ≤ 15)

/-- Every unused slot is zero (30_encoding.md R63). -/
def Instr.unusedZero (i : Instr) : Bool := decide (i.clearUnused = i)

/-- An instruction the encoder may produce: registers in range and unused slots zero. -/
def Instr.wellFormed (i : Instr) : Bool := i.regsOk && i.unusedZero

end Sys2Proof
end

