-- ==== Sys2Proof/Decode.lean ====
section
/-! DEFINITION. The codec: the word decomposition (00_scope.md R9, R10), the integer form of an instruction
(30_encoding.md R62), the decoder (R68, R69), the encoder (R64, R67, R70) and the byte order of an instruction in the
program buffer (R61). -/

namespace Sys2Proof

/-! ### Words and bytes (00_scope.md R9, R10) -/

/-- `lo(v) = v & 0xFF` (00_scope.md R10). -/
def lo (v : Word) : Byte := BitVec.ofNat 8 (v.toNat % 256)

/-- `hi(v) = (v >> 8) & 0xFF` (00_scope.md R10). -/
def hi (v : Word) : Byte := BitVec.ofNat 8 (v.toNat / 256)

/-- `word(lo, hi) = lo | (hi << 8)` (00_scope.md R10), by explicit arithmetic: the two bytes share no bit, so the `|` is a
sum. -/
def word (l h : Byte) : Word := BitVec.ofNat 16 (l.toNat + 256 * h.toNat)

/-- `bits16(n)`: the two's-complement pattern of an integer, `n mod 65536` (00_scope.md R9). -/
def bits16 (n : Int) : Word := BitVec.ofInt 16 n

/-- `signed16(v)`: a word read as two's complement. The core never computes it; a host may display a register so
(00_scope.md R9, 40_execution_engine.md R90). -/
def signed16 (v : Word) : Int := if v.toNat < 0x8000 then v.toNat else (v.toNat : Int) - 65536

/-! ### Opcodes (30_encoding.md R69) -/

/-- The ordinal of an opcode: its position in the handler list, from 0 (30_encoding.md R69). -/
def Opcode.ordinal : Opcode → Nat
  | .nop => 0
  | .hlt => 1
  | .movLitReg => 2
  | .movRegReg => 3
  | .movRegMem => 4
  | .movMemReg => 5
  | .addRegReg => 6

/-- The opcode byte. -/
def Opcode.byte (op : Opcode) : Byte := BitVec.ofNat 8 op.ordinal

/-- The dispatch's table: one entry per opcode ordinal, in the order of the enumeration (30_encoding.md R69, R75). -/
def handlerTable : List Opcode := [.nop, .hlt, .movLitReg, .movRegReg, .movRegMem, .movMemReg, .addRegReg]

/-- The opcode an opcode byte names, by "a pure table lookup by opcode ordinal" (40_execution_engine.md R78); 0x07 to 0xFF
name none (30_encoding.md R69). -/
def Opcode.ofByte? (b : Byte) : Option Opcode := handlerTable[b.toNat]?

/-- The shape of each opcode (30_encoding.md R67, R69). -/
def Opcode.shape : Opcode → Shape
  | .nop => .n
  | .hlt => .n
  | .movLitReg => .wb
  | .movRegReg => .bbb
  | .movRegMem => .bw
  | .movMemReg => .wb
  | .addRegReg => .bbb

/-! ### The integer form (30_encoding.md R62) -/

/-- `to_u32(x)`: byte `i` of the record is bits `8i+7` down to `8i` (30_encoding.md R62), by explicit arithmetic. -/
def Record.toU32 (x : Record) : U32 :=
  BitVec.ofNat 32 (x.opcode.toNat + 256 * x.arg0.toNat + 65536 * x.arg1.toNat + 16777216 * x.arg2.toNat)

/-- `decode(w)` of 30_encoding.md R62 and R68: the record of a 32-bit word; defined for every word. -/
def Record.ofU32 (w : U32) : Record where
  opcode := BitVec.ofNat 8 (w.toNat % 256)
  arg0 := BitVec.ofNat 8 (w.toNat / 256 % 256)
  arg1 := BitVec.ofNat 8 (w.toNat / 65536 % 256)
  arg2 := BitVec.ofNat 8 (w.toNat / 16777216)

/-- The record's bytes in program-buffer order: opcode, `args[0]`, `args[1]`, `args[2]` (30_encoding.md R61). -/
def Record.bytes (x : Record) : List Byte := [x.opcode, x.arg0, x.arg1, x.arg2]

/-! ### Decoding -/

/-- Three unused slots as one field, the lowest slot in the low bits (30_encoding.md R73). -/
def unusedField (a b c : Byte) : BitVec 24 := BitVec.ofNat 24 (a.toNat + 256 * b.toNat + 65536 * c.toNat)

/-- The instruction a record stands for: the opcode byte alone selects it (30_encoding.md R69) and the operand fields
are taken from the argument slots as in R64 and R67, every byte kept (R68). `none`: an opcode byte of 0x07 to 0xFF
(R72(a)). -/
def Record.instr? (x : Record) : Option Instr :=
  match Opcode.ofByte? x.opcode with
  | none => none
  | some .nop => some (.nop (unusedField x.arg0 x.arg1 x.arg2))
  | some .hlt => some (.hlt (unusedField x.arg0 x.arg1 x.arg2))
  | some .movLitReg => some (.movLitReg (word x.arg0 x.arg1) x.arg2)
  | some .movRegReg => some (.movRegReg x.arg0 x.arg1 x.arg2)
  | some .movRegMem => some (.movRegMem x.arg0 (word x.arg1 x.arg2))
  | some .movMemReg => some (.movMemReg (word x.arg0 x.arg1) x.arg2)
  | some .addRegReg => some (.addRegReg x.arg0 x.arg1 x.arg2)

/-- The instruction of a 32-bit word, or `none` for an opcode byte outside the handler table (30_encoding.md R62, R69,
R72(a)). -/
def decodeWord (w : U32) : Option Instr := (Record.ofU32 w).instr?

/-- The 32-bit word of four bytes in program-buffer order (40_execution_engine.md R77). -/
def wordOfBytes (b0 b1 b2 b3 : Byte) : U32 := Record.toU32 ⟨b0, b1, b2, b3⟩

/-- What decoding a byte string answers. Every input has one of these. -/
inductive Decoded where
  /-- the bytes begin with this instruction -/
  | instr (i : Instr)
  /-- the opcode byte is outside the handler table: 0x07 to 0xFF (30_encoding.md R72(a)) -/
  | badOpcode (opcode : Byte)
  /-- fewer than the four bytes of an instruction -/
  | truncated
  deriving DecidableEq, Repr

/-- The instruction at the head of a byte string (30_encoding.md R61); total on any bytes. -/
def decodeBytes : List Byte → Decoded
  | b0 :: b1 :: b2 :: b3 :: _ =>
    match decodeWord (wordOfBytes b0 b1 b2 b3) with
    | some i => .instr i
    | none => .badOpcode b0
  | _ => .truncated

/-! ### Encoding -/

/-- The record of an opcode all of whose argument slots are unused. -/
def unusedRecord (op : Opcode) (u : BitVec 24) : Record :=
  ⟨op.byte, BitVec.ofNat 8 (u.toNat % 256), BitVec.ofNat 8 (u.toNat / 256 % 256), BitVec.ofNat 8 (u.toNat / 65536)⟩

/-- The record of an instruction: operands placed as in 30_encoding.md R64 and R67, unused slots as the instruction
holds them (zero in a well-formed one). -/
def Instr.record (i : Instr) : Record :=
  match i with
  | .nop u => unusedRecord .nop u
  | .hlt u => unusedRecord .hlt u
  | .movLitReg imm rd => ⟨i.opcode.byte, lo imm, hi imm, rd⟩
  | .movRegReg rs rd u => ⟨i.opcode.byte, rs, rd, u⟩
  | .movRegMem rs addr => ⟨i.opcode.byte, rs, lo addr, hi addr⟩
  | .movMemReg addr rd => ⟨i.opcode.byte, lo addr, hi addr, rd⟩
  | .addRegReg ra rb u => ⟨i.opcode.byte, ra, rb, u⟩

/-- The 32-bit word of an instruction. -/
def encode (i : Instr) : U32 := i.record.toU32

/-- The four bytes of an instruction in program-buffer order. -/
def encodeBytes (i : Instr) : List Byte := i.record.bytes

/-- A register operand the encoder accepts (30_encoding.md R70). -/
def encodableReg (n : Nat) : Bool := decide (n ≤ 15)

/-- A literal the encoder accepts: -32768 to 65535 (30_encoding.md R70). -/
def encodableLiteral (n : Int) : Bool := decide (-32768 ≤ n) && decide (n ≤ 65535)

/-- A data address the encoder accepts: a `u16` (30_encoding.md R66). Log entry 12. -/
def encodableAddress (n : Int) : Bool := decide (0 ≤ n) && decide (n ≤ 65535)

/-- `encode(opcode, operands...)` as a caller uses it (30_encoding.md R70): the form must have the opcode's shape, and
registers and literals must be in range; otherwise the call is refused (`none`). Unused slots are written 0, and a
negative literal is its two's-complement pattern (R66). -/
def encodeCall (op : Opcode) (form : CallForm) : Option Instr :=
  match op, form with
  | .nop, .n => some (.nop 0)
  | .hlt, .n => some (.hlt 0)
  | .movLitReg, .wb imm rd =>
    if encodableLiteral imm && encodableReg rd then some (.movLitReg (bits16 imm) (BitVec.ofNat 8 rd)) else none
  | .movRegReg, .bbb rs rd =>
    if encodableReg rs && encodableReg rd then some (.movRegReg (BitVec.ofNat 8 rs) (BitVec.ofNat 8 rd) 0) else none
  | .movRegMem, .bw rs addr =>
    if encodableReg rs && encodableAddress addr then some (.movRegMem (BitVec.ofNat 8 rs) (bits16 addr)) else none
  | .movMemReg, .wb addr rd =>
    if encodableAddress addr && encodableReg rd then some (.movMemReg (bits16 addr) (BitVec.ofNat 8 rd)) else none
  | .addRegReg, .bbb ra rb =>
    if encodableReg ra && encodableReg rb then some (.addRegReg (BitVec.ofNat 8 ra) (BitVec.ofNat 8 rb) 0) else none
  | _, _ => none

/-! ### The opcode table's own numbering of an instruction's bits -/

/-- The 32-bit word whose low `nbits` bits are those of `w` and whose other bits are zero. -/
def tableWord (nbits w : Nat) : U32 := BitVec.ofNat 32 (w % 2 ^ nbits)

/-- The instruction the decoder reads from an instruction whose bits are `w`, numbered as spec/opcode_table.json numbers
them; the bits above `nbits` are zero. The word is laid out as the program buffer stores it (30_encoding.md R61). -/
def decodeTableWord (nbits w : Nat) : Option Instr :=
  match decodeBytes (Record.ofU32 (tableWord nbits w)).bytes with
  | .instr i => some i
  | .badOpcode _ => none
  | .truncated => none

end Sys2Proof
end

