-- ==== Sys2Proof/Machine/Device.lean ====
section
/-! DEFINITION. Bus devices as plain data, the byte accesses a device receives, and the router over a device list
(20_memory.md R31 to R34, R37, R43). -/

namespace Sys2Proof.Machine

/-- What stands behind a device's `read8` and `write8`. -/
inductive DeviceKind where
  /-- the banked RAM device (20_memory.md section 6), which is device 0 (R43) -/
  | bankedRam
  /-- an added device, whose `read8` and `write8` are the list's own (20_memory.md R31, 60_exceptions.md R113); its
  `read8` is the parameter `Config.deviceRead8`. Log entry 3. -/
  | other
  deriving DecidableEq, Repr

/-- A device: constant name, inclusive range, constant remap flag (20_memory.md R31), and its kind. -/
structure Device where
  name : String
  kind : DeviceKind
  start : Word
  stop : Word
  remap : Bool
  deriving DecidableEq, Repr

/-- One request a device receives: `read8(local)` or `write8(local, b)` at a device-local address (20_memory.md R31). -/
inductive Access where
  | read (addr : Word)
  | write (addr : Word) (b : Byte)
  deriving DecidableEq, Repr

/-- A request together with the device it went to. -/
structure DeviceAccess where
  device : Device
  access : Access
  deriving DecidableEq, Repr

/-- The banked RAM device: range `[0x0000, 0xFFFF]`, no remap (20_memory.md R43). The source gives no name string; any
constant will do (log entry 15). -/
def bankedRamDevice : Device := ⟨"banked_ram", .bankedRam, 0x0000, 0xFFFF, false⟩

/-- The default `BUS_DEVICES`: the one-element list `[BankedRAM]` (00_scope.md R7(a)). -/
def defaultDevices : List Device := [bankedRamDevice]

/-- `start <= addr <= end` (20_memory.md R31, R33). -/
def Device.claims (d : Device) (addr : Word) : Bool :=
  decide (d.start.toNat ≤ addr.toNat) && decide (addr.toNat ≤ d.stop.toNat)

/-- The device's range is a range: `start <= end` (20_memory.md R31). -/
def Device.rangeOk (d : Device) : Bool := decide (d.start.toNat ≤ d.stop.toNat)

/-- The device's range meets `[0x8001, 0xFFFF]` (20_memory.md R32(c)): its last address is above 0x8000. -/
def Device.meetsHigh (d : Device) : Bool := decide (0x8001 ≤ d.stop.toNat)

/-- The device's range contains `[0x8001, 0xFFFF]` (20_memory.md R32(d)). -/
def Device.coversHigh (d : Device) : Bool := decide (d.start.toNat ≤ 0x8001) && decide (d.stop.toNat = 0xFFFF)

/-- A well-formed device list (20_memory.md R32): (a) device 0 is the banked RAM device, which does not remap (R43);
(b) every range is a range; (c) no other device meets `[0x8001, 0xFFFF]`; (d) device 0 contains it. Every later entry
is an added device: the banked RAM device is device 0 alone (R43). Log entry 2. -/
def busWellFormed : List Device → Bool
  | [] => false
  | d :: ds =>
    decide (d.kind = .bankedRam) && !d.remap && d.rangeOk && d.coversHigh &&
      ds.all fun e => decide (e.kind = .other) && e.rangeOk && !e.meetsHigh

/-- `find_device(addr)` (20_memory.md R33): above 0x8000 device 0 without a scan; otherwise the first device in list
order whose range holds the address; `none` is the bus fault. -/
def findDevice (devices : List Device) (addr : Word) : Option Device :=
  if 0x8000 < addr.toNat then devices.head? else devices.find? fun d => d.claims addr

/-- `local(d, addr)` (20_memory.md R34): `addr - start` for a remapping device, else `addr`. -/
def Device.localAddr (d : Device) (addr : Word) : Word := if d.remap then addr - d.start else addr

/-- `check16(addr)` (20_memory.md R37): the one device a 16-bit access goes to; `none` is the bus fault. `addr + 1` is
computed without wrap. -/
def check16 (devices : List Device) (addr : Word) : Option Device :=
  match findDevice devices addr with
  | none => none
  | some d => if addr.toNat = 0xFFFF then none else if d.stop.toNat < addr.toNat + 1 then none else some d

end Sys2Proof.Machine
end

