-- ==== Sys2Proof/Config.lean ====
section
/-! DEFINITION. The parameters of the spec that no rule fixes, as constants without a body: `RAM_INIT` (00_scope.md R7(b),
92_eei_decisions.md D8) and the `read8` of the added devices of `BUS_DEVICES` (00_scope.md R7(a), D22). The list
`BUS_DEVICES` itself is state (10_state.md R26) and stands in `Machine/State.lean`. -/

namespace Sys2Proof

/-- `RAM_INIT`: the byte each of the 163840 RAM cells holds when the session is created. It has no body, so a claim
proved of the model holds for every initial content (93_implementation_defined.md row 8). The argument is the cell's
number (`Machine.lowCell`, `Machine.bankCell`). Log entry 1. -/
opaque Config.ramInit : Nat → Byte

/-- `read8(local)` of an added device (20_memory.md R31): the byte the device answers at a device-local address, given all
the requests it has received before, oldest first. It has no body, so a claim proved of the model holds whatever devices
are added. A device acts only when a request reaches it (00_scope.md R5), so its past requests stand for its inner state:
a read or a write may have any side effect on it (20_memory.md R53). Log entry 3. -/
opaque Config.deviceRead8 : Machine.Device → List Machine.Access → Word → Byte

end Sys2Proof
end

