-- ==== Sys2Proof/Machine/Memory.lean ====
section
/-! DEFINITION. The RAM arrays of the banked RAM device (10_state.md R25) as one sparse list of (cell number, byte)
pairs in canonical form, and the operations that read and write one cell. -/

namespace Sys2Proof.Machine

/-- The RAM arrays' contents: the cells that differ from `RAM_INIT`, cell numbers strictly rising. -/
abbrev Memory := List Host.Cell

/-- The number of RAM bytes: `low` and four banks of 32768 each (10_state.md R25). -/
def ramCells : Nat := 163840

/-- The cell of `low[i]` (10_state.md R25). Log entry 11. -/
def lowCell (i : Nat) : Nat := i

/-- The cell of `bank[b][i]` (10_state.md R25). Log entry 11. -/
def bankCell (b i : Nat) : Nat := 0x8000 + b * 0x8000 + i

/-- The byte a cell holds. A cell that is not listed holds `RAM_INIT` (00_scope.md R7(b), 42_data_movement.md R98). -/
def Memory.read : Memory → Nat → Byte
  | [], c => Config.ramInit c
  | (k, b) :: m, c => if k = c then b else Memory.read m c

/-- The cells but `c`. -/
def Memory.erase (m : Memory) (c : Nat) : Memory := m.filter fun e => decide (e.1 ≠ c)

/-- The cells with `(c, b)` in its place by rising number, taking the place of an entry for `c`. -/
def Memory.insert : Memory → Nat → Byte → Memory
  | [], c, b => [(c, b)]
  | (k, v) :: m, c, b =>
    if c < k then (c, b) :: (k, v) :: m
    else if c = k then (c, b) :: m
    else (k, v) :: Memory.insert m c b

/-- One byte written to a cell. Writing what an unlisted cell reads as removes the entry, so equal contents are equal
lists. -/
def Memory.write (m : Memory) (c : Nat) (b : Byte) : Memory :=
  if b = Config.ramInit c then m.erase c else m.insert c b

/-- The canonical form: cell numbers strictly rising and below `ramCells`, and no entry equal to what an unlisted cell
reads as. -/
abbrev Memory.wf (m : Memory) : Prop :=
  m.Pairwise (fun x y => x.1 < y.1) ∧ ∀ e ∈ m, e.1 < ramCells ∧ e.2 ≠ Config.ramInit e.1

end Sys2Proof.Machine
end

