-- ==== Sys2Proof/Machine/State.lean ====
section
/-! DEFINITION. The architectural state (10_state.md), the fault reasons (60_exceptions.md R103), the refusals, and the
state after reset (R27, 70_reset_and_hazards.md R118). -/

namespace Sys2Proof.Machine

/-- The register file: 16 registers of 16 bits (10_state.md R13). -/
structure RegFile where
  pc : Word
  ac : Word
  sp : Word
  fp : Word
  im : Word
  mb : Word
  ps : Word
  fl : Word
  r0 : Word
  r1 : Word
  r2 : Word
  r3 : Word
  r4 : Word
  r5 : Word
  r6 : Word
  r7 : Word
  deriving DecidableEq, Repr

/-- Every register at its value after `reset()` (10_state.md R27). -/
def RegFile.zero : RegFile := ⟨0, 0, 0, 0, 0, 0, 0, 0, 0, 0, 0, 0, 0, 0, 0, 0⟩

/-- Everything the block holds (10_state.md): the register file (R13), the status stub (R23), the program buffer as
bytes (R24), the RAM arrays (R25) and the bus's device list (R26). Nothing else is state: no latch, no flag, no cache
(R22, R29, 40_execution_engine.md R84, R85). The field `accesses` is the model's: the requests that added devices have
received, oldest first, which stand for what those devices hold inside (20_memory.md R53; log entry 3). -/
structure State where
  regs : RegFile
  status : Word
  program : List Byte
  ram : Memory
  devices : List Device
  accesses : List DeviceAccess
  deriving DecidableEq, Repr

/-- Why an instruction ends in `Fault(reason)`: the closed set of 60_exceptions.md R103, each with what the outcome
carries. A fault changes no state (R105), so the state it leaves is the state it found. -/
inductive Fault where
  /-- Raised by `mov_reg_mem` and `mov_mem_reg` on the conditions of 20_memory.md R37; carries the instruction, its
  `pc` and the data address. A host access that is a bus fault ends no instruction: `BusResult.busFault`. Safe: the spec
  states this fault. Log entries 14 and 22. -/
  | busFault (instr : Instr) (pc : Word) (addr : Word)
  /-- `DecodeFault(BadOpcode)`, raised by the dispatch for an opcode byte of 0x07 to 0xFF (30_encoding.md R72(a));
  carries the instruction word and its `pc`. Safe: the spec states this fault. -/
  | badOpcode (instrWord : U32) (pc : Word)
  /-- `DecodeFault(BadRegister)`, raised by the dispatch for a register field of 16 to 255 (30_encoding.md R72(b));
  carries the instruction word and its `pc`. Safe: the spec states this fault. -/
  | badRegister (instrWord : U32) (pc : Word)
  /-- Raised by fetch when `pc` is not a multiple of 4 or lies past the program (40_execution_engine.md R77); carries
  that `pc`. Safe: the spec states this fault. -/
  | fetchFault (pc : Word)
  deriving DecidableEq, Repr

/-- Why the model gives no outcome. -/
inductive Refusal where
  /-- An instruction without a meaning yet, raised by `exec`'s arm alone. Safe: nothing is claimed of it. No arm of this
  model raises it. -/
  | notModelled (mnemonic : String)
  /-- Raised by a bus access when the device list is not well formed: "A model refuses a device list that is not well
  formed" (20_memory.md R32). Safe: such a list is no configuration of this hardware. Log entry 4. -/
  | illFormedDeviceList
  deriving DecidableEq, Repr

/-- The machine right after reset: a new session's empty program buffer, untouched RAM and default device list
(70_reset_and_hazards.md R118, 00_scope.md R7), with every register and the status stub zeroed by `reset()`
(10_state.md R27). -/
def State.reset : State where
  regs := RegFile.zero
  status := 0
  program := []
  ram := []
  devices := defaultDevices
  accesses := []

end Sys2Proof.Machine
end

