-- ==== Sys2Proof/Machine/Ops.lean ====
section
/-! DEFINITION. The named operations the instructions are written over: the register file (10_state.md R14), the banked
RAM device (20_memory.md R44, R45), the bus accesses (R35 to R40), the per-instruction outcome (00_scope.md R12), the
loop's advance of `pc` (40_execution_engine.md R81) and what a fault does (60_exceptions.md R105, R108). -/

namespace Sys2Proof.Machine

/-! ### The register file -/

/-- `get(register)` (10_state.md R14). No register is hard-wired. -/
def RegFile.get (f : RegFile) : Reg → Word
  | .pc => f.pc
  | .ac => f.ac
  | .sp => f.sp
  | .fp => f.fp
  | .im => f.im
  | .mb => f.mb
  | .ps => f.ps
  | .fl => f.fl
  | .r0 => f.r0
  | .r1 => f.r1
  | .r2 => f.r2
  | .r3 => f.r3
  | .r4 => f.r4
  | .r5 => f.r5
  | .r6 => f.r6
  | .r7 => f.r7

/-- `set(register, v)`: "No side effects beyond the targeted slot" (10_state.md R14). -/
def RegFile.set (f : RegFile) (r : Reg) (v : Word) : RegFile :=
  match r with
  | .pc => { f with pc := v }
  | .ac => { f with ac := v }
  | .sp => { f with sp := v }
  | .fp => { f with fp := v }
  | .im => { f with im := v }
  | .mb => { f with mb := v }
  | .ps => { f with ps := v }
  | .fl => { f with fl := v }
  | .r0 => { f with r0 := v }
  | .r1 => { f with r1 := v }
  | .r2 => { f with r2 := v }
  | .r3 => { f with r3 := v }
  | .r4 => { f with r4 := v }
  | .r5 => { f with r5 := v }
  | .r6 => { f with r6 := v }
  | .r7 => { f with r7 := v }

/-- `x[r]` (00_scope.md R11). -/
def State.getReg (s : State) (r : Reg) : Word := s.regs.get r

/-- `x[r] <- v` (00_scope.md R11). -/
def State.setReg (s : State) (r : Reg) (v : Word) : State := { s with regs := s.regs.set r v }

/-- The value of `pc` (00_scope.md R11). -/
abbrev State.pc (s : State) : Word := s.getReg .pc

/-! ### The banked RAM device -/

/-- The selected high bank: `mb mod 4` (10_state.md R16). -/
def bankOf (mb : Word) : Nat := mb.toNat % 4

/-- The cell behind device address `a` when the bank register holds `mb`: `low[a]` up to 0x7FFF, else
`bank[mb mod 4][a - 0x8000]` (20_memory.md R44, R45). -/
def ramCell (mb a : Word) : Nat :=
  if a.toNat ≤ 0x7FFF then lowCell a.toNat else bankCell (bankOf mb) (a.toNat - 0x8000)

/-- The RAM device's `read8`, with the bank read afresh from `mb` (20_memory.md R44, R46). -/
def State.ramRead8 (s : State) (a : Word) : Byte := s.ram.read (ramCell (s.getReg .mb) a)

/-- The RAM device's `write8`, with the bank read afresh from `mb` (20_memory.md R45, R46). -/
def State.ramWrite8 (s : State) (a : Word) (b : Byte) : State :=
  { s with ram := s.ram.write (ramCell (s.getReg .mb) a) b }

/-- `low[i]` (10_state.md R25). -/
def State.low (s : State) (i : Nat) : Byte := s.ram.read (lowCell i)

/-- `bank[b][i]` (10_state.md R25). -/
def State.bank (s : State) (b i : Nat) : Byte := s.ram.read (bankCell b i)

/-! ### The bus -/

/-- What a bus access answers its caller: a value, a bus fault (20_memory.md R42), or a refusal of the model. -/
inductive BusResult (α : Type) where
  | ok (a : α)
  /-- the bus fault, with the data address of the access. To the host it carries that alone: 60_exceptions.md R103 lists an
  instruction and its `pc` beside it, which a host access does not have. DESIGN CHOICE, log entry 22. -/
  | busFault (addr : Word)
  | refused (r : Refusal)
  deriving DecidableEq, Repr

/-- Go on with the value of an access; a bus fault or a refusal is handed up. -/
def BusResult.andThen {α β : Type} (x : BusResult α) (k : α → BusResult β) : BusResult β :=
  match x with
  | .ok a => k a
  | .busFault addr => .busFault addr
  | .refused r => .refused r

/-- The answer of an access with its value changed by `f`. -/
def BusResult.map {α β : Type} (f : α → β) (x : BusResult α) : BusResult β := x.andThen fun a => .ok (f a)

/-- The answer of the router for an access at `addr`: a device, or the bus fault of 20_memory.md R33; refused when the
device list is not well formed (R32). -/
def State.routed (s : State) (addr : Word) (found : Option Device) : BusResult Device :=
  if busWellFormed s.devices then
    match found with
    | some d => .ok d
    | none => .busFault addr
  else .refused .illFormedDeviceList

/-- The requests an added device has received, oldest first. -/
def State.accessesOf (s : State) (d : Device) : List Access :=
  (s.accesses.filter fun x => decide (x.device = d)).map DeviceAccess.access

/-- An added device has received one more request. -/
def State.noteAccess (s : State) (d : Device) (x : Access) : State := { s with accesses := s.accesses ++ [⟨d, x⟩] }

/-- A device's `read8` at a local address (20_memory.md R31), with the state after it: the RAM device's read changes
nothing (R49), an added device's may change what that device holds (R53; log entry 3). -/
def State.deviceRead8 (s : State) (d : Device) (l : Word) : Byte × State :=
  match d.kind with
  | .bankedRam => (s.ramRead8 l, s)
  | .other => (Config.deviceRead8 d (s.accessesOf d) l, s.noteAccess d (.read l))

/-- A device's `write8` at a local address (20_memory.md R31): the RAM device's writes its cell (R45), an added device's
may change what that device holds (R53; log entry 3). -/
def State.deviceWrite8 (s : State) (d : Device) (l : Word) (b : Byte) : State :=
  match d.kind with
  | .bankedRam => s.ramWrite8 l b
  | .other => s.noteAccess d (.write l b)

/-- The 16-bit read of one device: "a derived, non-overridable composition of two 8-bit accesses" (20_memory.md R31), the
low byte at `l` first, then the high byte at `l + 1` (R38, R40, R53). -/
def State.deviceRead16 (s : State) (d : Device) (l : Word) : Word × State :=
  let first := s.deviceRead8 d l
  let second := first.2.deviceRead8 d (l + 1)
  (word first.1 second.1, second.2)

/-- The 16-bit write of one device: `lo(v)` at `l` first, then `hi(v)` at `l + 1` (20_memory.md R31, R39, R40, R53). -/
def State.deviceWrite16 (s : State) (d : Device) (l v : Word) : State :=
  (s.deviceWrite8 d l (lo v)).deviceWrite8 d (l + 1) (hi v)

/-- `Read8(addr)` (20_memory.md R35), with the state after it. -/
def State.read8 (s : State) (addr : Word) : BusResult (Byte × State) :=
  (s.routed addr (findDevice s.devices addr)).map fun d => s.deviceRead8 d (d.localAddr addr)

/-- `Write8(addr, b)` (20_memory.md R36). -/
def State.write8 (s : State) (addr : Word) (b : Byte) : BusResult State :=
  (s.routed addr (findDevice s.devices addr)).map fun d => s.deviceWrite8 d (d.localAddr addr) b

/-- `MemRead(addr, 2)` (20_memory.md R38), with the state after it: every check first, then both bytes from the one
resolved device. -/
def State.memRead (s : State) (addr : Word) : BusResult (Word × State) :=
  (s.routed addr (check16 s.devices addr)).map fun d => s.deviceRead16 d (d.localAddr addr)

/-- `MemWrite(addr, 2, v)` (20_memory.md R39): every check first, then both bytes to the one resolved device. -/
def State.memWrite (s : State) (addr v : Word) : BusResult State :=
  (s.routed addr (check16 s.devices addr)).map fun d => s.deviceWrite16 d (d.localAddr addr) v

/-! ### The outcome of one instruction -/

/-- What one handler answers: `Continue`, `Halt` or `Fault(reason)` (00_scope.md R12) with the state it leaves, or a
refusal of the model. A fault carries no state: it changes none (60_exceptions.md R105). -/
inductive Flow where
  | continues (s : State)
  | halts (s : State)
  | faults (r : Fault)
  | refuses (r : Refusal)
  deriving DecidableEq, Repr

/-- The loop's `pc <- pc + 4`, modulo 65536 (40_execution_engine.md R81). -/
def State.advance (s : State) : State := s.setReg .pc (s.pc + 4)

/-- What the loop makes of a handler's outcome: `pc` advances after `Continue` alone; after `Halt` nothing changes
(40_execution_engine.md R80, R81, R84); a fault is handed to the host (60_exceptions.md R108). Log entries 7 and 8. -/
def Flow.finish (f : Flow) : Host.Outcome State Fault Refusal :=
  match f with
  | .continues s => .next s.advance
  | .halts s => .next s
  | .faults r => .fault r
  | .refuses r => .refused r

/-- Taking a fault: "A fault saves nothing and changes nothing" (60_exceptions.md R108), so the state the host finds
after it is the state before the instruction, `pc` included (R105). There is no return from it (R109). Log entry 9. -/
def State.afterFault (s : State) (_reason : Fault) : State := s

/-- The reference number of a fault reason (60_exceptions.md R103); not architecturally visible. -/
def Fault.code : Fault → Nat
  | .busFault _ _ _ => 1
  | .badOpcode _ _ => 2
  | .badRegister _ _ => 3
  | .fetchFault _ => 4

end Sys2Proof.Machine
end

