-- ==== Sys2Proof/Machine/Operands.lean ====
section
/-! DEFINITION. The operand forms: a register operand is a byte that the dispatch checks before any effect
(30_encoding.md R65, R72(b), 40_execution_engine.md R78); a literal is used as it stands (30_encoding.md R66); a data
address is the absolute address it holds (42_data_movement.md R94). -/

namespace Sys2Proof

/-- The number of a register (10_state.md R13). -/
def Reg.number : Reg → Nat
  | .pc => 0
  | .ac => 1
  | .sp => 2
  | .fp => 3
  | .im => 4
  | .mb => 5
  | .ps => 6
  | .fl => 7
  | .r0 => 8
  | .r1 => 9
  | .r2 => 10
  | .r3 => 11
  | .r4 => 12
  | .r5 => 13
  | .r6 => 14
  | .r7 => 15

/-- The operand byte that names a register (30_encoding.md R65). -/
def Reg.byte (r : Reg) : Byte := BitVec.ofNat 8 r.number

/-- The register an operand byte names; 16 to 255 name none (30_encoding.md R65). -/
def Reg.ofByte? (b : Byte) : Option Reg :=
  match b.toNat with
  | 0 => some .pc
  | 1 => some .ac
  | 2 => some .sp
  | 3 => some .fp
  | 4 => some .im
  | 5 => some .mb
  | 6 => some .ps
  | 7 => some .fl
  | 8 => some .r0
  | 9 => some .r1
  | 10 => some .r2
  | 11 => some .r3
  | 12 => some .r4
  | 13 => some .r5
  | 14 => some .r6
  | 15 => some .r7
  | _ => none

end Sys2Proof

namespace Sys2Proof.Machine

/-- The dispatch's check of one register operand of the instruction `i` (40_execution_engine.md R78): go on with the
register it names, or end in `DecodeFault(BadRegister)` with the instruction's word and its `pc` (60_exceptions.md
R103). -/
def withReg (i : Instr) (s : State) (operand : Byte) (handler : Reg → Flow) : Flow :=
  match Reg.ofByte? operand with
  | some r => handler r
  | none => .faults (.badRegister (encode i) s.pc)

/-- The effective address of a memory instruction: its word operand as it stands (42_data_movement.md R94). -/
def effectiveAddress (addr : Word) : Word := addr

/-- The one bus access of the memory instruction `i`: go on with its value, or end in `BusFault` with the instruction, its
`pc` and the address (20_memory.md R42, 60_exceptions.md R103). -/
def onBus {α : Type} (i : Instr) (s : State) (access : BusResult α) (handler : α → Flow) : Flow :=
  match access with
  | .ok a => handler a
  | .busFault addr => .faults (.busFault i s.pc addr)
  | .refused r => .refuses r

end Sys2Proof.Machine
end

