-- ==== Sys2Proof/Machine/Arithmetic.lean ====
section
/-! DEFINITION. The arithmetic instruction (43_arithmetic.md). -/

namespace Sys2Proof.Machine

/-- `add_reg_reg(ra, rb)`: `a <- x[ra]; b <- x[rb]; x[ac] <- (a + b) mod 65536`; both operands are read before `ac` is
written (43_arithmetic.md R100). -/
def flowAddRegReg (ra rb unused : Byte) (s : State) : Flow :=
  withReg (.addRegReg ra rb unused) s ra fun a =>
    withReg (.addRegReg ra rb unused) s rb fun b => .continues (s.setReg .ac (addWrap (s.getReg a) (s.getReg b)))

/-- `add_reg_reg` and the loop after it (43_arithmetic.md R100). -/
def execAddRegReg (ra rb unused : Byte) (s : State) : Host.Outcome State Fault Refusal :=
  (flowAddRegReg ra rb unused s).finish

end Sys2Proof.Machine
end

