-- ==== Sys2Proof/Machine/Control.lean ====
section
/-! DEFINITION. The control instructions (41_control.md). Each `flow…` is one `execute_one` (40_execution_engine.md
R78): the decode checks, then the handler. Each `exec…` adds what the loop does with its outcome (R81). -/

namespace Sys2Proof.Machine

/-- `nop`: `return Continue` (41_control.md R92); the unused slots are ignored (30_encoding.md R73). -/
def flowNop (_unused : BitVec 24) (s : State) : Flow := .continues s

/-- `nop` and the loop after it (41_control.md R92). -/
def execNop (unused : BitVec 24) (s : State) : Host.Outcome State Fault Refusal := (flowNop unused s).finish

/-- `hlt`: `signal Halt`, no register, no memory and no `pc` change (41_control.md R93). -/
def flowHlt (_unused : BitVec 24) (s : State) : Flow := .halts s

/-- `hlt` and the loop after it (41_control.md R93). -/
def execHlt (unused : BitVec 24) (s : State) : Host.Outcome State Fault Refusal := (flowHlt unused s).finish

end Sys2Proof.Machine
end

