-- ==== Sys2Proof/Machine/DataMovement.lean ====
section
/-! DEFINITION. The data movement instructions (42_data_movement.md). -/

namespace Sys2Proof.Machine

/-- `mov_lit_reg(imm, rd)`: `x[rd] <- imm` (42_data_movement.md R95). -/
def flowMovLitReg (imm : Word) (rd : Byte) (s : State) : Flow :=
  withReg (.movLitReg imm rd) s rd fun d => .continues (s.setReg d imm)

/-- `mov_lit_reg` and the loop after it (42_data_movement.md R95). -/
def execMovLitReg (imm : Word) (rd : Byte) (s : State) : Host.Outcome State Fault Refusal :=
  (flowMovLitReg imm rd s).finish

/-- `mov_reg_reg(rs, rd)`: `v <- x[rs]; x[rd] <- v` (42_data_movement.md R96). -/
def flowMovRegReg (rs rd unused : Byte) (s : State) : Flow :=
  withReg (.movRegReg rs rd unused) s rs fun r =>
    withReg (.movRegReg rs rd unused) s rd fun d => .continues (s.setReg d (s.getReg r))

/-- `mov_reg_reg` and the loop after it (42_data_movement.md R96). -/
def execMovRegReg (rs rd unused : Byte) (s : State) : Host.Outcome State Fault Refusal :=
  (flowMovRegReg rs rd unused s).finish

/-- `mov_reg_mem(rs, addr)`: `v <- x[rs]; MemWrite(addr, 2, v)` (42_data_movement.md R97). -/
def flowMovRegMem (rs : Byte) (addr : Word) (s : State) : Flow :=
  withReg (.movRegMem rs addr) s rs fun r =>
    onBus (.movRegMem rs addr) s (s.memWrite (effectiveAddress addr) (s.getReg r)) fun s' => .continues s'

/-- `mov_reg_mem` and the loop after it (42_data_movement.md R97). -/
def execMovRegMem (rs : Byte) (addr : Word) (s : State) : Host.Outcome State Fault Refusal :=
  (flowMovRegMem rs addr s).finish

/-- `mov_mem_reg(addr, rd)`: `v <- MemRead(addr, 2); x[rd] <- v` (42_data_movement.md R98). -/
def flowMovMemReg (addr : Word) (rd : Byte) (s : State) : Flow :=
  withReg (.movMemReg addr rd) s rd fun d =>
    onBus (.movMemReg addr rd) s (s.memRead (effectiveAddress addr)) fun x => .continues (x.2.setReg d x.1)

/-- `mov_mem_reg` and the loop after it (42_data_movement.md R98). -/
def execMovMemReg (addr : Word) (rd : Byte) (s : State) : Host.Outcome State Fault Refusal :=
  (flowMovMemReg addr rd s).finish

end Sys2Proof.Machine
end

