-- ==== Sys2Proof/Machine/Dispatch.lean ====
section
/-! DEFINITION. The dispatch: one arm per opcode, in the order of 30_encoding.md R69 (R75). -/

namespace Sys2Proof.Machine

def exec (i : Instr) (s : State) : Host.Outcome State Fault Refusal :=
  match i with
  | .nop unused => Sys2Proof.Machine.execNop unused s
  | .hlt unused => Sys2Proof.Machine.execHlt unused s
  | .movLitReg imm rd => Sys2Proof.Machine.execMovLitReg imm rd s
  | .movRegReg rs rd unused => Sys2Proof.Machine.execMovRegReg rs rd unused s
  | .movRegMem rs addr => Sys2Proof.Machine.execMovRegMem rs addr s
  | .movMemReg addr rd => Sys2Proof.Machine.execMovMemReg addr rd s
  | .addRegReg ra rb unused => Sys2Proof.Machine.execAddRegReg ra rb unused s

end Sys2Proof.Machine
end

