-- ==== Sys2Proof/Machine/Fetch.lean ====
section
/-! DEFINITION. Fetch from the program buffer (40_execution_engine.md R77), decode (R80), and the placing of a word where
the next fetch reads it. -/

namespace Sys2Proof.Machine

/-- `Fetch(pc)`: the word at byte offset `pc` of the program buffer; `none` is `FetchFault`, when `pc` is not a multiple
of 4 or `pc / 4 >= N` (40_execution_engine.md R77). The bus is not involved (20_memory.md R58). Log
entry 19. -/
def State.fetch (s : State) : Option U32 :=
  if s.pc.toNat % 4 ≠ 0 then none
  else if s.program.length / 4 ≤ s.pc.toNat / 4 then none
  else
    some (wordOfBytes (s.program.getD s.pc.toNat 0) (s.program.getD (s.pc.toNat + 1) 0)
      (s.program.getD (s.pc.toNat + 2) 0) (s.program.getD (s.pc.toNat + 3) 0))

/-- What fetching and decoding the next instruction gives. -/
inductive Fetched where
  /-- the instruction the dispatch is to run -/
  | instr (i : Instr)
  /-- `FetchFault`, or `DecodeFault(BadOpcode)` of the dispatch -/
  | fault (r : Fault)
  deriving DecidableEq, Repr

/-- Fetch, then decode, then the dispatch's check of the opcode, in that order (40_execution_engine.md R77, R78, R80;
60_exceptions.md R106). -/
def State.fetchDecode (s : State) : Fetched :=
  match s.fetch with
  | none => .fault (.fetchFault s.pc)
  | some w =>
    match decodeWord w with
    | some i => .instr i
    | none => .fault (.badOpcode w s.pc)

/-- The program offset of the instruction a fetch at `pc` can read: `pc` itself when it is a multiple of 4. -/
def fetchOffset (pc : Word) : Nat := pc.toNat / 4 * 4

/-- A program buffer with the word `w` at byte offset `off`: the bytes before it are kept (zero bytes where the buffer
was shorter), those after it are kept, and a `hlt` is put after it where it would be the last instruction and the
buffer's 65536 bytes leave room, so that the buffer ends in `hlt` as a loaded one does (10_state.md R24). Log entry 6. -/
def placeWord (program : List Byte) (off : Nat) (w : U32) : List Byte :=
  program.take off ++ List.replicate (off - program.length) 0 ++ (Record.ofU32 w).bytes ++
    (if off + 4 < program.length then program.drop (off + 4)
     else if off + 8 ≤ 65536 then encodeBytes (.hlt 0) else [])

end Sys2Proof.Machine
end

