-- ==== Sys2Proof/Machine/Step.lean ====
section
/-! DEFINITION. One step of the machine: `step()` of 40_execution_engine.md R80, as its next state; the pair that the
host receives is `hostStep` of `Machine/HostPort.lean`. -/

namespace Sys2Proof.Machine

/-- One instruction: fetch, decode, dispatch, and the loop's advance, which is part of `exec` (40_execution_engine.md R80,
R81). -/
def step (s : State) : Host.Outcome State Fault Refusal :=
  match s.fetchDecode with
  | .instr i => exec i s
  | .fault r => .fault r

/-- `s` with the instruction whose bits are `w` (numbered as the opcode table numbers them) stored where the next fetch
reads it: in the program buffer, at the offset `pc` holds. It stands for the host's loading of a program (log entry 6). -/
def State.withFetchWord (s : State) (nbits w : Nat) : State :=
  { s.setReg .pc (BitVec.ofNat 16 (fetchOffset s.pc)) with
    program := placeWord s.program (fetchOffset s.pc) (tableWord nbits w) }

end Sys2Proof.Machine
end

