-- ==== Sys2Proof/Machine/Engine.lean ====
section
/-! DEFINITION. `execute_one` as the engine has it, answering the `ControlFlow` outcome itself (40_execution_engine.md
R78); the host's `step()` returns that outcome. `exec` is the same dispatch with the loop's part added. -/

namespace Sys2Proof.Machine

/-- `execute_one(cpu, bus, instruction) -> ControlFlow` for an instruction whose opcode is in the table
(40_execution_engine.md R78). -/
def executeOne (i : Instr) (s : State) : Flow :=
  match i with
  | .nop unused => flowNop unused s
  | .hlt unused => flowHlt unused s
  | .movLitReg imm rd => flowMovLitReg imm rd s
  | .movRegReg rs rd unused => flowMovRegReg rs rd unused s
  | .movRegMem rs addr => flowMovRegMem rs addr s
  | .movMemReg addr rd => flowMovMemReg addr rd s
  | .addRegReg ra rb unused => flowAddRegReg ra rb unused s

end Sys2Proof.Machine
end

