-- ==== Sys2Proof/Machine/HostPort.lean ====
section
/-! DEFINITION. The host port (40_execution_engine.md R88): `reset`, `load_program`, `step`, `execute`, register read and
the bus accesses between instructions; and a session, which has no register values before its first `reset()`
(10_state.md R28, 70_reset_and_hazards.md R118). -/

namespace Sys2Proof.Machine

/-- The load-time errors, which no instruction raises and which change no state (60_exceptions.md R104). -/
inductive LoadError where
  /-- bad magic, truncated header or directory, or a payload past the end of the file (70_reset_and_hazards.md R122,
  R123) -/
  | malformedRom
  /-- the id is not in the directory (70_reset_and_hazards.md R123) -/
  | unknownRegion
  /-- the program is empty, too long, of a broken length, or does not end in `hlt` (40_execution_engine.md R89) -/
  | programInvariantViolation
  deriving DecidableEq, Repr

/-- `reset()`: every register and the status stub to zero; the program buffer, the RAM arrays, the device list
and what the added devices hold stay as they are (10_state.md R27, 70_reset_and_hazards.md R117). -/
def State.hostReset (s : State) : State := { s with regs := RegFile.zero, status := 0 }

/-- The check of `load_program` (40_execution_engine.md R89): not empty, a multiple of 4, at most 65536 bytes, and the
byte at `L - 4` is the opcode of `hlt`. -/
def programAccepted (bytes : List Byte) : Bool :=
  decide (bytes.length ≠ 0) && decide (bytes.length % 4 = 0) && decide (bytes.length ≤ 65536) &&
    decide (bytes.getD (bytes.length - 4) 0 = 0x01)

/-- `load_program(addr, bytes)` (40_execution_engine.md R89): a refused load changes nothing, a successful one changes
the program buffer alone; `addr` is not used. -/
def State.loadProgram (s : State) (_addr : Word) (bytes : List Byte) : Except LoadError State :=
  if programAccepted bytes then .ok { s with program := bytes } else .error .programInvariantViolation

/-- The outcome the host receives from `step()` (00_scope.md R12); `refused` is the model's. -/
inductive HostOutcome where
  | continues
  | halted
  | faulted (r : Fault)
  | refused (r : Refusal)
  deriving DecidableEq, Repr

/-- What `step()` returns, the pair of the instruction fetched and its outcome (40_execution_engine.md R80), with the
state it leaves. `none` for the instruction is the fetch fault's. -/
structure StepReturn where
  instruction : Option U32
  outcome : HostOutcome
  after : State
  deriving DecidableEq, Repr

/-- The pair and state `step()` returns for the outcome of `execute_one` on the word `w` in state `s`
(40_execution_engine.md R80, R81; 60_exceptions.md R105). -/
def Flow.stepReturn (w : U32) (s : State) (f : Flow) : StepReturn :=
  match f with
  | .continues s' => ⟨some w, .continues, s'.advance⟩
  | .halts s' => ⟨some w, .halted, s'⟩
  | .faults r => ⟨some w, .faulted r, s.afterFault r⟩
  | .refuses r => ⟨some w, .refused r, s⟩

/-- `step()` (40_execution_engine.md R80). -/
def State.hostStep (s : State) : StepReturn :=
  match s.fetch with
  | none => ⟨none, .faulted (.fetchFault s.pc), s.afterFault (.fetchFault s.pc)⟩
  | some w =>
    match decodeWord w with
    | some i => (executeOne i s).stepReturn w s
    | none => ⟨some w, .faulted (.badOpcode w s.pc), s.afterFault (.badOpcode w s.pc)⟩

/-- `execute()` (40_execution_engine.md R86): `step()` until the outcome is not `Continue`. `Executes s r` says that it
returns, and with what; a program that never halts or faults has no such `r`. Log entry 13. -/
inductive Executes : State → StepReturn → Prop where
  | stops {s : State} (h : s.hostStep.outcome ≠ .continues) : Executes s s.hostStep
  | goesOn {s : State} {r : StepReturn} (h : s.hostStep.outcome = .continues) (rest : Executes s.hostStep.after r) :
      Executes s r

/-- `execute()` given at most `n` calls of `step()`: what it returned, or `none` while it is still running. -/
def State.executeFor : Nat → State → Option StepReturn
  | 0, _ => none
  | n + 1, s => if s.hostStep.outcome = .continues then State.executeFor n s.hostStep.after else some s.hostStep

/-- The machine is halted: `pc` points at a `hlt` (60_exceptions.md R116). There is no latch (R84). -/
def State.halted (s : State) : Bool :=
  match s.fetchDecode with
  | .instr (.hlt _) => true
  | _ => false

/-! ### A session -/

/-- A session (10_state.md R28, 70_reset_and_hazards.md R118). -/
inductive Session where
  /-- before the first `reset()`: the registers and the status stub hold no value, and no device has received a request.
  Log entry 5. -/
  | fresh (program : List Byte) (ram : Memory) (devices : List Device)
  /-- from the first `reset()` on -/
  | live (s : State)
  deriving DecidableEq, Repr

/-- A new session over the device list the host built: an empty program buffer and RAM at `RAM_INIT`; a list that is not
well formed is refused (20_memory.md R32, 70_reset_and_hazards.md R118, R119). -/
def Session.create (devices : List Device) : Option Session :=
  if busWellFormed devices then some (.fresh [] [] devices) else none

/-- `reset()` of a session (70_reset_and_hazards.md R117). -/
def Session.reset : Session → Session
  | .fresh program ram devices => .live ⟨RegFile.zero, 0, program, ram, devices, []⟩
  | .live s => .live s.hostReset

/-- `load_program` of a session; it may come before or after the first reset (70_reset_and_hazards.md R119). -/
def Session.loadProgram (x : Session) (addr : Word) (bytes : List Byte) : Except LoadError Session :=
  match x with
  | .fresh _ ram devices =>
    if programAccepted bytes then .ok (.fresh bytes ram devices) else .error .programInvariantViolation
  | .live s => (s.loadProgram addr bytes).map .live

/-- The state an operation that reads a register acts on: `none` before the first reset, when reading a register faults
because it holds no value (10_state.md R28). `step`, `execute`, `get` and every access to the RAM device, which reads
`mb` (00_scope.md R4), are such operations. -/
def Session.state? : Session → Option State
  | .fresh _ _ _ => none
  | .live s => some s

/-- `get(register)` (40_execution_engine.md R88). -/
def Session.get (x : Session) (r : Reg) : Option Word := x.state?.map fun s => s.getReg r

/-- `step()` of a session; `none` before the first reset, since fetch reads `pc` (10_state.md R28). -/
def Session.step (x : Session) : Option (StepReturn × Session) :=
  x.state?.map fun s => (s.hostStep, .live s.hostStep.after)

/-- `Read8(addr)` by the host (20_memory.md R60), with the session after it. -/
def Session.read8 (x : Session) (addr : Word) : Option (BusResult (Byte × Session)) :=
  x.state?.map fun s => (s.read8 addr).map fun y => (y.1, .live y.2)

/-- `Write8(addr, b)` by the host (20_memory.md R60). -/
def Session.write8 (x : Session) (addr : Word) (b : Byte) : Option (BusResult Session) :=
  x.state?.map fun s => (s.write8 addr b).map .live

/-- `MemRead(addr, 2)` by the host (20_memory.md R60), with the session after it. -/
def Session.memRead (x : Session) (addr : Word) : Option (BusResult (Word × Session)) :=
  x.state?.map fun s => (s.memRead addr).map fun y => (y.1, .live y.2)

/-- `MemWrite(addr, 2, v)` by the host (20_memory.md R60). -/
def Session.memWrite (x : Session) (addr v : Word) : Option (BusResult Session) :=
  x.state?.map fun s => (s.memWrite addr v).map .live

end Sys2Proof.Machine
end

