-- ==== Sys2Proof/Machine/Notation.lean ====
section
/-! DEFINITION. The call notation in which the spec writes instructions (30_encoding.md R76): source first, registers by
name, words in decimal. -/

namespace Sys2Proof

/-- The name of a register (10_state.md R13). -/
def Reg.name : Reg → String
  | .pc => "pc"
  | .ac => "ac"
  | .sp => "sp"
  | .fp => "fp"
  | .im => "im"
  | .mb => "mb"
  | .ps => "ps"
  | .fl => "fl"
  | .r0 => "r0"
  | .r1 => "r1"
  | .r2 => "r2"
  | .r3 => "r3"
  | .r4 => "r4"
  | .r5 => "r5"
  | .r6 => "r6"
  | .r7 => "r7"

/-- The mnemonic of an opcode (30_encoding.md R69). -/
def Opcode.mnemonic : Opcode → String
  | .nop => "nop"
  | .hlt => "hlt"
  | .movLitReg => "mov_lit_reg"
  | .movRegReg => "mov_reg_reg"
  | .movRegMem => "mov_reg_mem"
  | .movMemReg => "mov_mem_reg"
  | .addRegReg => "add_reg_reg"

/-- `mnemonic(first, second)`. -/
def callText (op : Opcode) (first second : String) : String := op.mnemonic ++ "(" ++ first ++ ", " ++ second ++ ")"

/-- The notation of an instruction; `none` when a register field names no register, for which there is no notation
(30_encoding.md R76). -/
def Instr.text (i : Instr) : Option String :=
  match i with
  | .nop _ => some "nop"
  | .hlt _ => some "hlt"
  | .movLitReg imm rd => (Reg.ofByte? rd).map fun d => callText i.opcode (toString imm.toNat) d.name
  | .movRegReg rs rd _ =>
    (Reg.ofByte? rs).bind fun r => (Reg.ofByte? rd).map fun d => callText i.opcode r.name d.name
  | .movRegMem rs addr => (Reg.ofByte? rs).map fun r => callText i.opcode r.name (toString addr.toNat)
  | .movMemReg addr rd => (Reg.ofByte? rd).map fun d => callText i.opcode (toString addr.toNat) d.name
  | .addRegReg ra rb _ =>
    (Reg.ofByte? ra).bind fun a => (Reg.ofByte? rb).map fun b => callText i.opcode a.name b.name

end Sys2Proof
end

