-- ==== Sys2Proof/Machine/Rom.lean ====
section
/-! DEFINITION. The ROM image that programs arrive in (70_reset_and_hazards.md R120 to R124). It is external to CORE; its
layout is bit-exact, so it is modelled as functions on the file's bytes. File handling and lazy caching are out of scope
(00_scope.md R3(d)). Log entry 16. -/

namespace Sys2Proof.Machine

/-- One region directory entry (70_reset_and_hazards.md R121). `loadat`, `bank` and `reserved` are carried and not read
by the core (R124). -/
structure RegionEntry where
  id : U32
  offset : U32
  size : Word
  loadat : Word
  bank : Word
  reserved : Word
  deriving DecidableEq, Repr

/-- A loaded ROM: its file, its version bytes and its directory (70_reset_and_hazards.md R120). -/
structure Rom where
  file : List Byte
  major : Byte
  minor : Byte
  entries : List RegionEntry
  deriving DecidableEq, Repr

/-- The magic: `0x7F 'r' '1' '6'` (70_reset_and_hazards.md R120). Log entry 21. -/
def romMagic : List Byte := [0x7F, 0x72, 0x31, 0x36]

/-- A little-endian `u16` of a file (70_reset_and_hazards.md R120). -/
def le16 (file : List Byte) (off : Nat) : Word := word (file.getD off 0) (file.getD (off + 1) 0)

/-- A little-endian `u32` of a file (70_reset_and_hazards.md R120). -/
def le32 (file : List Byte) (off : Nat) : U32 :=
  wordOfBytes (file.getD off 0) (file.getD (off + 1) 0) (file.getD (off + 2) 0) (file.getD (off + 3) 0)

/-- The directory entry at a file offset (70_reset_and_hazards.md R121). -/
def RegionEntry.parse (file : List Byte) (off : Nat) : RegionEntry where
  id := le32 file off
  offset := le32 file (off + 4)
  size := le16 file (off + 8)
  loadat := le16 file (off + 10)
  bank := le16 file (off + 12)
  reserved := le16 file (off + 14)

/-- `load(path) -> Rom | MalformedRom`, on the file's bytes (70_reset_and_hazards.md R122): a truncated header, a bad
magic and a truncated directory are malformed; the version bytes and the reserved field are not checked. Entry `i`
starts at `8 + 16i` (R121). -/
def Rom.load (file : List Byte) : Except LoadError Rom :=
  if file.length < 8 then .error .malformedRom
  else if file.take 4 ≠ romMagic then .error .malformedRom
  else if file.length < 8 + 16 * (le16 file 6).toNat then .error .malformedRom
  else
    .ok {
      file := file
      major := file.getD 4 0
      minor := file.getD 5 0
      entries := (List.range (le16 file 6).toNat).map fun i => RegionEntry.parse file (8 + 16 * i) }

/-- `Rom.get_region(id) -> bytes | UnknownRegion` (70_reset_and_hazards.md R123): the first entry with that id; a payload
past the end of the file is malformed. -/
def Rom.getRegion (rom : Rom) (id : U32) : Except LoadError (List Byte) :=
  match rom.entries.find? fun e => decide (e.id = id) with
  | none => .error .unknownRegion
  | some e =>
    if rom.file.length < e.offset.toNat + e.size.toNat then .error .malformedRom
    else .ok ((rom.file.drop e.offset.toNat).take e.size.toNat)

/-- The bytes of a `u16`, low byte first (70_reset_and_hazards.md R120). -/
def le16Bytes (v : Word) : List Byte := [lo v, hi v]

/-- The bytes of a `u32`, low byte first (70_reset_and_hazards.md R120). -/
def le32Bytes (v : U32) : List Byte := (Record.ofU32 v).bytes

/-- The 16 bytes of a directory entry; the writer writes 0 to `reserved` (70_reset_and_hazards.md R121). -/
def RegionEntry.bytes (e : RegionEntry) : List Byte :=
  le32Bytes e.id ++ le32Bytes e.offset ++ le16Bytes e.size ++ le16Bytes e.loadat ++ le16Bytes e.bank ++ le16Bytes 0

/-- A ROM file: header, directory, payloads (70_reset_and_hazards.md R120). -/
def romImage (major minor : Byte) (entries : List RegionEntry) (payloads : List Byte) : List Byte :=
  romMagic ++ [major, minor] ++ le16Bytes (BitVec.ofNat 16 entries.length) ++ entries.flatMap RegionEntry.bytes ++
    payloads

/-- A region becomes a program when the host passes its bytes to `load_program`; the entry's `loadat` and `bank` are not
read (70_reset_and_hazards.md R124). -/
def State.loadRegion (s : State) (rom : Rom) (id : U32) : Except LoadError State :=
  match rom.getRegion id with
  | .ok bytes => s.loadProgram 0 bytes
  | .error e => .error e

end Sys2Proof.Machine
end

