-- ==== Sys2Proof/Safety.lean ====
section
/-! DEFINITION. The terms statements about runs use: the machine's invariant, what two states share, and the registers an
instruction may write. -/

namespace Sys2Proof.Machine

/-- The program buffer as 10_state.md R24 has it: empty, or as a successful `load_program` left it. -/
def programOk (program : List Byte) : Bool := decide (program = []) || programAccepted program

/-- What holds of every state a session reaches: the RAM is in canonical form, the device list is well formed (20_memory.md
R32), the program buffer is empty or was loaded (10_state.md R24), and the status stub holds its reset value (R23). -/
structure Inv (s : State) : Prop where
  ram : s.ram.wf
  devices : busWellFormed s.devices = true
  program : programOk s.program = true
  status : s.status = 0

/-- Every register but those listed reads the same in both states. -/
def RegsSameBut (s t : State) (changed : List Reg) : Prop := ∀ r, r ∉ changed → t.getReg r = s.getReg r

/-- Every RAM byte but the listed cells reads the same in both states, the unselected banks' bytes among them. -/
def CellsSameBut (s t : State) (changed : List Nat) : Prop := ∀ c, c ∉ changed → t.ram.read c = s.ram.read c

/-- What no step ever changes is the same: the status stub, the program buffer and the device list. -/
def FixedSame (s t : State) : Prop := t.status = s.status ∧ t.program = s.program ∧ t.devices = s.devices

/-- The state that is neither a register nor RAM is the same: the status stub, the program buffer and the device list,
and no added device has received a request. -/
def RestSame (s t : State) : Prop := FixedSame s t ∧ t.accesses = s.accesses

/-- The operand byte names `pc` as the destination register of the instruction (10_state.md R21). -/
def writesPc : Instr → Bool
  | .nop _ => false
  | .hlt _ => false
  | .movLitReg _ rd => decide (rd = Reg.pc.byte)
  | .movRegReg _ rd _ => decide (rd = Reg.pc.byte)
  | .movRegMem _ _ => false
  | .movMemReg _ rd => decide (rd = Reg.pc.byte)
  | .addRegReg _ _ _ => false

/-- The instruction is a `hlt`. -/
def isHlt (i : Instr) : Bool := decide (i.opcode = .hlt)

/-- The 16-bit access at `addr` reaches the RAM device, the list's first device `d` (20_memory.md R32(a), R43), and both
its bytes lie in that device's range. On a list whose RAM device has a narrower range than R43's this rests on log
entry 2. -/
def ReachesRam (s : State) (addr : Word) (d : Device) : Prop :=
  busWellFormed s.devices = true ∧ check16 s.devices addr = some d ∧ s.devices.head? = some d

/-- The 16-bit access at `addr` reaches the added device `d` and both its bytes lie in that device's range. -/
def ReachesAdded (s : State) (addr : Word) (d : Device) : Prop :=
  busWellFormed s.devices = true ∧ check16 s.devices addr = some d ∧ d.kind = .other

end Sys2Proof.Machine
end

