-- ==== Sys2Proof/Certificates/Slice0/Obligations.lean ====
section
/-! DEFINITION. The statements about the model, for the provers. Each docstring names the rule of spec/ it formalises. -/

open Sys2Proof Sys2Proof.Machine

/-! ### The codec -/

/-- 00_scope.md R10: the word decomposition, by explicit arithmetic, and that `word` undoes it. -/
def Obligations.WordSplitsIntoLowAndHighByte : Prop :=
  (∀ v : Word, (lo v).toNat = v.toNat &&& 0xFF ∧ (hi v).toNat = (v.toNat >>> 8) &&& 0xFF ∧ word (lo v) (hi v) = v) ∧
    ∀ l h : Byte, (word l h).toNat = l.toNat ||| (h.toNat <<< 8) ∧ lo (word l h) = l ∧ hi (word l h) = h

/-- 00_scope.md R9, 30_encoding.md R66, 90_conflicts.md C1: the pattern of a literal in range, its signed reading, and the
corrected example `-32734`. -/
def Obligations.LiteralPatternIsTwosComplement : Prop :=
  (∀ n : Int, 0 ≤ n → n ≤ 65535 → ((bits16 n).toNat : Int) = n) ∧
    (∀ n : Int, -32768 ≤ n → n < 0 → ((bits16 n).toNat : Int) = 65536 + n) ∧
    (∀ n : Int, -32768 ≤ n → n ≤ 32767 → signed16 (bits16 n) = n) ∧ bits16 (-32734) = 0x8022

/-- 30_encoding.md R71, R62: the record codec loses no byte in either direction, and byte `i` of a record is bits `8i+7`
down to `8i` of its integer. -/
def Obligations.RecordAndIntegerAgree : Prop :=
  (∀ x : Record, Record.ofU32 x.toU32 = x) ∧ (∀ w : U32, (Record.ofU32 w).toU32 = w) ∧
    ∀ x : Record,
      x.toU32.toNat =
        x.opcode.toNat ||| (x.arg0.toNat <<< 8) ||| (x.arg1.toNat <<< 16) ||| (x.arg2.toNat <<< 24)

/-- 30_encoding.md R68, R69, R71: the decoder reads an instruction from a word exactly when the encoder writes that word
for it, every operand and every unused slot at every value; and so from bytes, whatever follows them. -/
def Obligations.DecodeAndEncodeAgree : Prop :=
  (∀ (w : U32) (i : Instr), decodeWord w = some i ↔ encode i = w) ∧
    ∀ (i : Instr) (rest : List Byte), decodeBytes (encodeBytes i ++ rest) = .instr i

/-- 30_encoding.md R64, R67 and the "Encoding" line of R92, R93, R95, R96, R97, R98 and R100: the integer form of every
instruction with its unused slots zero. -/
def Obligations.EncodingPlacesEveryOperand : Prop :=
  (encode (.nop 0)).toNat = 0 ∧ (encode (.hlt 0)).toNat = 1 ∧
    (∀ (imm : Word) (rd : Byte), (encode (.movLitReg imm rd)).toNat = (rd.toNat <<< 24) ||| (imm.toNat <<< 8) ||| 2) ∧
    (∀ rs rd : Byte, (encode (.movRegReg rs rd 0)).toNat = (rd.toNat <<< 16) ||| (rs.toNat <<< 8) ||| 3) ∧
    (∀ (rs : Byte) (addr : Word), (encode (.movRegMem rs addr)).toNat = (addr.toNat <<< 16) ||| (rs.toNat <<< 8) ||| 4) ∧
    (∀ (addr : Word) (rd : Byte), (encode (.movMemReg addr rd)).toNat = (rd.toNat <<< 24) ||| (addr.toNat <<< 8) ||| 5) ∧
    ∀ ra rb : Byte, (encode (.addRegReg ra rb 0)).toNat = (rb.toNat <<< 16) ||| (ra.toNat <<< 8) ||| 6

/-- 30_encoding.md R69, R75: the low byte alone selects the instruction, by its position in the list of seven opcodes, and
every other value selects none. -/
def Obligations.OpcodeByteSelectsTheInstruction : Prop :=
  ∀ w : U32,
    (decodeWord w).map Instr.opcode =
      [Opcode.nop, .hlt, .movLitReg, .movRegReg, .movRegMem, .movMemReg, .addRegReg][w.toNat % 256]?

/-- 95_test_vectors.md: words of the spec decode to the instructions they stand for. -/
def Obligations.ExampleWordsDecode : Prop :=
  decodeWord 0x00000000 = some (.nop 0) ∧ decodeWord 0x00000001 = some (.hlt 0) ∧
    decodeWord 0x0B802202 = some (.movLitReg 0x8022 11) ∧ decodeWord 0x000A0103 = some (.movRegReg 1 10 0) ∧
    decodeWord 0x90000A04 = some (.movRegMem 10 0x9000) ∧ decodeWord 0x09900005 = some (.movMemReg 0x9000 9) ∧
    decodeWord 0x000A0906 = some (.addRegReg 9 10 0) ∧ decodeWord 0xFFFFFFFF = none

/-- 30_encoding.md R70: a call with the wrong shape is refused; what the encoder produces is well formed and of the opcode
asked for; registers must be 0 to 15 and literals -32768 to 65535. (An address is a `u16`, R66; of other integers given as
an address nothing is said here.) -/
def Obligations.EncoderRefusesBadCalls : Prop :=
  (∀ (op : Opcode) (form : CallForm), form.shape ≠ op.shape → encodeCall op form = none) ∧
    (∀ (op : Opcode) (form : CallForm) (i : Instr), encodeCall op form = some i → i.wellFormed = true ∧ i.opcode = op) ∧
    encodeCall .nop .n = some (.nop 0) ∧ encodeCall .hlt .n = some (.hlt 0) ∧
    (∀ (imm : Int) (rd : Nat), encodeCall .movLitReg (.wb imm rd) =
      if (-32768 ≤ imm ∧ imm ≤ 65535) ∧ rd ≤ 15 then some (.movLitReg (bits16 imm) (BitVec.ofNat 8 rd)) else none) ∧
    (∀ a b : Nat, encodeCall .movRegReg (.bbb a b) =
      if a ≤ 15 ∧ b ≤ 15 then some (.movRegReg (BitVec.ofNat 8 a) (BitVec.ofNat 8 b) 0) else none) ∧
    (∀ a b : Nat, encodeCall .addRegReg (.bbb a b) =
      if a ≤ 15 ∧ b ≤ 15 then some (.addRegReg (BitVec.ofNat 8 a) (BitVec.ofNat 8 b) 0) else none) ∧
    (∀ (a : Nat) (addr : Word), encodeCall .movRegMem (.bw a addr.toNat) =
      if a ≤ 15 then some (.movRegMem (BitVec.ofNat 8 a) addr) else none) ∧
    ∀ (a : Nat) (addr : Word), encodeCall .movMemReg (.wb addr.toNat a) =
      if a ≤ 15 then some (.movMemReg addr (BitVec.ofNat 8 a)) else none

/-- 30_encoding.md R73: an instruction with non-zero unused slots behaves exactly like the same instruction with zero
there. (The word a `DecodeFault(BadRegister)` carries still shows the slots, so the registers are in range here.) -/
def Obligations.UnusedSlotsAreIgnored : Prop :=
  ∀ (i : Instr) (s : State), i.regsOk = true → exec i s = exec i.clearUnused s

/-! ### Registers and reset -/

/-- 10_state.md R13, 30_encoding.md R65: the register numbers; an operand byte names the register of its value, and 16 to
255 name none. -/
def Obligations.OperandByteNamesItsRegister : Prop :=
  [Reg.pc, .ac, .sp, .fp, .im, .mb, .ps, .fl, .r0, .r1, .r2, .r3, .r4, .r5, .r6, .r7].map Reg.number = List.range 16 ∧
    (∀ (b : Byte) (r : Reg), Reg.ofByte? b = some r ↔ b.toNat = r.number) ∧
    ∀ b : Byte, Reg.ofByte? b = none ↔ 16 ≤ b.toNat

/-- 10_state.md R14: a register reads the value last written to it, and a write has no side effect beyond its slot. -/
def Obligations.RegisterReadsTheLastWrite : Prop :=
  ∀ (s : State) (r : Reg) (v : Word),
    (s.setReg r v).getReg r = v ∧ RegsSameBut s (s.setReg r v) [r] ∧ CellsSameBut s (s.setReg r v) [] ∧
      RestSame s (s.setReg r v)

/-- 10_state.md R27, 70_reset_and_hazards.md R117: `reset()` zeroes every register and the status stub and leaves the
program buffer, the RAM, the device list and what the added devices hold; calling it twice is calling it once. -/
def Obligations.ResetZeroesRegistersOnly : Prop :=
  ∀ s : State,
    (∀ r, s.hostReset.getReg r = 0) ∧ s.hostReset.status = 0 ∧ s.hostReset.program = s.program ∧
      s.hostReset.ram = s.ram ∧ s.hostReset.devices = s.devices ∧ s.hostReset.accesses = s.accesses ∧
      s.hostReset.hostReset = s.hostReset

/-- 70_reset_and_hazards.md R118, 10_state.md R28 and R27: a new session over the default device list has no register
values and an empty program buffer; its first `reset()` gives `State.reset`, in which every register and the status stub
are zero. That a session before its reset answers nothing to a register read is log entry 5. -/
def Obligations.NewSessionHasNoRegisterValues : Prop :=
  Session.create defaultDevices = some (.fresh [] [] defaultDevices) ∧
    (∀ (x : Session) (devices : List Device), Session.create devices = some x →
      (∀ r, x.get r = none) ∧ x.step = none ∧ ∀ r, x.reset.get r = some 0) ∧
    Session.reset (.fresh [] [] defaultDevices) = .live State.reset ∧ (∀ r, State.reset.getReg r = 0) ∧
    State.reset.status = 0 ∧ State.reset.program = []

/-- 70_reset_and_hazards.md R119: `reset()` and `load_program` touch disjoint state, so they may come in either order. -/
def Obligations.ResetAndLoadCommute : Prop :=
  ∀ (x : Session) (addr : Word) (bytes : List Byte),
    x.reset.loadProgram addr bytes = (x.loadProgram addr bytes).map Session.reset

/-! ### The bus and the RAM device -/

/-- 20_memory.md R32: the four conditions of a well-formed device list, said with the addresses a device claims, and that
another list is refused. The model's readings: the RAM device is the entry of that kind which does not remap, and the
first one alone (log entry 2); beside the session, a memory instruction of a state that holds such a list is refused by
name (log entry 4). -/
def Obligations.DeviceListIsRefusedUnlessWellFormed : Prop :=
  (∀ devices : List Device, busWellFormed devices = true ↔
    ∃ d rest, devices = d :: rest ∧ (d.kind = .bankedRam ∧ d.remap = false) ∧ (∀ e ∈ rest, e.kind = .other) ∧
      (∀ e ∈ devices, e.start.toNat ≤ e.stop.toNat) ∧
      (∀ e ∈ rest, ∀ a : Word, 0x8001 ≤ a.toNat → e.claims a = false) ∧
      ∀ a : Word, 0x8001 ≤ a.toNat → d.claims a = true) ∧
    (∀ devices : List Device, Session.create devices = none ↔ busWellFormed devices = false) ∧
    (∀ (r : Reg) (addr : Word) (s : State), busWellFormed s.devices = false →
      exec (.movRegMem r.byte addr) s = .refused .illFormedDeviceList ∧
        exec (.movMemReg addr r.byte) s = .refused .illFormedDeviceList) ∧
    busWellFormed defaultDevices = true

/-- 20_memory.md R33: above 0x8000 device 0 without a scan; otherwise the first device of the list whose range holds the
address; and under the default list every address is device 0's. -/
def Obligations.RouterTakesFastPathThenFirstMatch : Prop :=
  (∀ (devices : List Device) (a : Word), 0x8000 < a.toNat → findDevice devices a = devices.head?) ∧
    (∀ (devices : List Device) (a : Word) (d : Device), a.toNat ≤ 0x8000 →
      (findDevice devices a = some d ↔
        ∃ before after, devices = before ++ d :: after ∧ (d.start.toNat ≤ a.toNat ∧ a.toNat ≤ d.stop.toNat) ∧
          ∀ e ∈ before, ¬ (e.start.toNat ≤ a.toNat ∧ a.toNat ≤ e.stop.toNat))) ∧
    ∀ a : Word, findDevice defaultDevices a = some bankedRamDevice

/-- 20_memory.md R34: a remapping device receives the address less its range's start, which does not wrap; another
receives the address itself. -/
def Obligations.RemapSubtractsTheRangeStart : Prop :=
  ∀ (d : Device) (a : Word), d.claims a = true →
    (d.remap = true → (d.localAddr a).toNat = a.toNat - d.start.toNat) ∧ (d.remap = false → d.localAddr a = a)

/-- 20_memory.md R37: when a 16-bit access is a bus fault. -/
def Obligations.WordAccessFaultConditions : Prop :=
  ∀ (devices : List Device) (a : Word),
    check16 devices a = none ↔
      a = 0xFFFF ∨ findDevice devices a = none ∨
        ∃ d, findDevice devices a = some d ∧ ¬ a.toNat + 1 ≤ d.stop.toNat

/-- 20_memory.md R35, R36, R44, R45, R53: the byte accesses on every well-formed device list. Where no device claims the
address both are bus faults (the address they carry: log entry 22). Where the first device, the RAM device, owns it (on
the default list, everywhere), a read answers `low` up to 0x7FFF and the bank `mb mod 4` selects from 0x8000 and changes
nothing, and a write changes that one byte. Where an added device owns it, the device receives the one request at its
local address; the byte it answers is the parameter `Config.deviceRead8` (log entry 3). On a list whose RAM device has a
narrower range than R43's it rests on log entry 2. -/
def Obligations.ByteAccessSelectsLowOrBank : Prop :=
  ∀ (s : State) (a : Word) (b : Byte), busWellFormed s.devices = true →
    (findDevice s.devices a = none → s.read8 a = .busFault a ∧ s.write8 a b = .busFault a) ∧
      (findDevice s.devices a = s.devices.head? →
        (a.toNat ≤ 0x7FFF → s.read8 a = .ok (s.low a.toNat, s)) ∧
          (0x8000 ≤ a.toNat → s.read8 a = .ok (s.bank ((s.getReg .mb).toNat % 4) (a.toNat - 0x8000), s)) ∧
          ∃ t, s.write8 a b = .ok t ∧ t.read8 a = .ok (b, t) ∧ CellsSameBut s t [ramCell (s.getReg .mb) a] ∧
            RegsSameBut s t [] ∧ RestSame s t) ∧
      ∀ d : Device, findDevice s.devices a = some d → d.kind = .other →
        (∃ t, s.read8 a = .ok (Config.deviceRead8 d (s.accessesOf d) (d.localAddr a), t) ∧
          t.accesses = s.accesses ++ [⟨d, .read (d.localAddr a)⟩] ∧ CellsSameBut s t [] ∧ RegsSameBut s t [] ∧
          FixedSame s t) ∧
          ∃ t, s.write8 a b = .ok t ∧ t.accesses = s.accesses ++ [⟨d, .write (d.localAddr a) b⟩] ∧
            CellsSameBut s t [] ∧ RegsSameBut s t [] ∧ FixedSame s t

/-- 20_memory.md R39, R38, R50, R40: where a 16-bit access reaches the RAM device, a word written is read back, its low
byte lies at `addr` and its high byte at `addr + 1` of that one device, and nothing else changes. On a list whose RAM
device has a narrower range than R43's it rests on log entry 2. -/
def Obligations.WordWriteIsLittleEndian : Prop :=
  ∀ (s : State) (addr v : Word) (d : Device), ReachesRam s addr d →
    ∃ t, s.memWrite addr v = .ok t ∧ t.memRead addr = .ok (v, t) ∧
      t.ramRead8 (d.localAddr addr) = lo v ∧ t.ramRead8 (d.localAddr addr + 1) = hi v ∧
      CellsSameBut s t [ramCell (s.getReg .mb) (d.localAddr addr), ramCell (s.getReg .mb) (d.localAddr addr + 1)] ∧
      RegsSameBut s t [] ∧ RestSame s t

/-- 20_memory.md R50: mixed-width access, on the default device list. -/
def Obligations.WordWriteThenByteReads : Prop :=
  ∀ (s : State) (addr v : Word), s.devices = defaultDevices → addr ≠ 0xFFFF →
    ∃ t, s.memWrite addr v = .ok t ∧ t.read8 addr = .ok (lo v, t) ∧ t.read8 (addr + 1) = .ok (hi v, t)

/-- 20_memory.md R47: no step changes a byte of a bank that `mb mod 4` did not select when the step began. -/
def Obligations.UnselectedBanksStayUnchanged : Prop :=
  ∀ (s t : State) (b i : Nat), step s = .next t → b < 4 → i < 0x8000 → b ≠ (s.getReg .mb).toNat % 4 →
    t.bank b i = s.bank b i

/-- 10_state.md R16, 20_memory.md R46: only `mb mod 4` selects the bank; the upper 14 bits of `mb` have no effect on an
access: with either of two values that agree modulo 4, each of the four bus accesses has the same answer, and leaves the
same state but for `mb` itself. That an added device answers by its requests alone, and so alike: log entry 3. -/
def Obligations.UpperBankBitsHaveNoEffect : Prop :=
  ∀ (s : State) (m m' a v : Word) (b : Byte), m.toNat % 4 = m'.toNat % 4 →
    (s.setReg .mb m').read8 a = ((s.setReg .mb m).read8 a).map (fun x => (x.1, x.2.setReg .mb m')) ∧
      (s.setReg .mb m').memRead a = ((s.setReg .mb m).memRead a).map (fun x => (x.1, x.2.setReg .mb m')) ∧
      (s.setReg .mb m').write8 a b = ((s.setReg .mb m).write8 a b).map (fun t => t.setReg .mb m') ∧
      (s.setReg .mb m').memWrite a v = ((s.setReg .mb m).memWrite a v).map (fun t => t.setReg .mb m')

/-- 70_reset_and_hazards.md R125, 10_state.md R16: a write to `mb` selects the new bank for the very next access. The
writers are `mov_lit_reg`, `mov_reg_reg` and `mov_mem_reg` with destination `mb`, `k` the value each writes; the next
access is a `mov_mem_reg`, a `mov_reg_mem` or a byte access of the host, at an address of the high half that the RAM
device owns (on the default list, all but 0xFFFF). On a list whose RAM device has a narrower range than R43's it rests on
log entry 2. -/
def Obligations.BankSwitchTakesEffectAtOnce : Prop :=
  ∀ (s : State) (w : Instr) (k addr : Word) (d : Device), ReachesRam s addr d → 0x8000 ≤ addr.toNat →
    (w = .movLitReg k Reg.mb.byte ∨ (∃ rs unused, w = .movRegReg (Reg.byte rs) Reg.mb.byte unused ∧ k = s.getReg rs) ∨
      ∃ a u, w = .movMemReg a Reg.mb.byte ∧ s.memRead (effectiveAddress a) = .ok (k, u)) →
    ∃ t, exec w s = .next t ∧ t.getReg .mb = k ∧
      (∀ rd : Reg, ∃ u, exec (.movMemReg addr rd.byte) t = .next u ∧
        u.getReg rd = word (s.bank (k.toNat % 4) (addr.toNat - 0x8000)) (s.bank (k.toNat % 4) (addr.toNat + 1 - 0x8000)) +
          if rd = .pc then 4 else 0) ∧
      (∀ rs : Reg, ∃ u, exec (.movRegMem rs.byte addr) t = .next u ∧
        u.bank (k.toNat % 4) (addr.toNat - 0x8000) = lo (t.getReg rs) ∧
        u.bank (k.toNat % 4) (addr.toNat + 1 - 0x8000) = hi (t.getReg rs)) ∧
      t.read8 addr = .ok (s.bank (k.toNat % 4) (addr.toNat - 0x8000), t) ∧
      ∀ b : Byte, ∃ u, t.write8 addr b = .ok u ∧ u.bank (k.toNat % 4) (addr.toNat - 0x8000) = b

/-! ### The instructions: results and frames -/

/-- 41_control.md R92, 40_execution_engine.md R81: `nop` completes, `pc` advances by 4 and nothing else changes. -/
def Obligations.NopAdvancesPcOnly : Prop :=
  ∀ (unused : BitVec 24) (s : State),
    ∃ t, exec (.nop unused) s = .next t ∧ t.getReg .pc = s.getReg .pc + 4 ∧ RegsSameBut s t [.pc] ∧
      CellsSameBut s t [] ∧ RestSame s t

/-- 41_control.md R93, 40_execution_engine.md R84: `hlt` completes and changes nothing, `pc` included. -/
def Obligations.HltChangesNothing : Prop :=
  ∀ (unused : BitVec 24) (s : State), exec (.hlt unused) s = .next s ∧ executeOne (.hlt unused) s = .halts s

/-- 42_data_movement.md R95, 10_state.md R21: `mov_lit_reg` completes for every destination; `pc` as destination takes the
literal and then the loop's 4. -/
def Obligations.MovLitRegWritesTheLiteral : Prop :=
  ∀ (imm : Word) (rd : Reg) (s : State),
    ∃ t, exec (.movLitReg imm rd.byte) s = .next t ∧
      t.getReg .pc = (if rd = .pc then imm else s.getReg .pc) + 4 ∧ (rd ≠ .pc → t.getReg rd = imm) ∧
      RegsSameBut s t [.pc, rd] ∧ CellsSameBut s t [] ∧ RestSame s t

/-- 42_data_movement.md R96, 10_state.md R19, R21: `mov_reg_reg` completes for every pair; `pc` as source is the
instruction's own offset. -/
def Obligations.MovRegRegCopiesTheSource : Prop :=
  ∀ (rs rd : Reg) (unused : Byte) (s : State),
    ∃ t, exec (.movRegReg rs.byte rd.byte unused) s = .next t ∧
      t.getReg .pc = (if rd = .pc then s.getReg rs else s.getReg .pc) + 4 ∧ (rd ≠ .pc → t.getReg rd = s.getReg rs) ∧
      RegsSameBut s t [.pc, rd] ∧ CellsSameBut s t [] ∧ RestSame s t

/-- 42_data_movement.md R97, 20_memory.md R39: `mov_reg_mem` completes whenever the access reaches the RAM device, on any
well-formed device list; the two bytes it stores stand at the device address of `addr` and the one after it. On a list
whose RAM device has a narrower range than R43's it rests on log entry 2; an added device:
`AddedDeviceGetsBothBytesInOrder`. -/
def Obligations.MovRegMemStoresTheWord : Prop :=
  ∀ (rs : Reg) (addr : Word) (s : State) (d : Device), ReachesRam s (effectiveAddress addr) d →
    ∃ t, exec (.movRegMem rs.byte addr) s = .next t ∧
      t.ram.read (ramCell (s.getReg .mb) (d.localAddr (effectiveAddress addr))) = lo (s.getReg rs) ∧
      t.ram.read (ramCell (s.getReg .mb) (d.localAddr (effectiveAddress addr) + 1)) = hi (s.getReg rs) ∧
      CellsSameBut s t [ramCell (s.getReg .mb) (d.localAddr (effectiveAddress addr)),
        ramCell (s.getReg .mb) (d.localAddr (effectiveAddress addr) + 1)] ∧
      t.getReg .pc = s.getReg .pc + 4 ∧ RegsSameBut s t [.pc] ∧ RestSame s t

/-- 42_data_movement.md R97, R94, 20_memory.md R44, R45, R48, R51: on the default device list `mov_reg_mem` completes at
every address but 0xFFFF, odd ones included; where its two bytes go, 0x7FFF (one byte low, one banked) among the cases. -/
def Obligations.StoreGoesToLowOrSelectedBank : Prop :=
  ∀ (rs : Reg) (addr : Word) (s : State), s.devices = defaultDevices → addr ≠ 0xFFFF →
    ∃ t, exec (.movRegMem rs.byte addr) s = .next t ∧
      (addr.toNat < 0x7FFF → t.low addr.toNat = lo (s.getReg rs) ∧ t.low (addr.toNat + 1) = hi (s.getReg rs)) ∧
      (addr.toNat = 0x7FFF →
        t.low 0x7FFF = lo (s.getReg rs) ∧ t.bank ((s.getReg .mb).toNat % 4) 0 = hi (s.getReg rs)) ∧
      (0x8000 ≤ addr.toNat →
        t.bank ((s.getReg .mb).toNat % 4) (addr.toNat - 0x8000) = lo (s.getReg rs) ∧
          t.bank ((s.getReg .mb).toNat % 4) (addr.toNat + 1 - 0x8000) = hi (s.getReg rs))

/-- 42_data_movement.md R98, 20_memory.md R38: `mov_mem_reg` completes whenever the access reaches the RAM device; the
bank is the one `mb` selects before the destination is written. On a list whose RAM device has a narrower range than
R43's it rests on log entry 2; an added device: `AddedDeviceGetsBothBytesInOrder`. -/
def Obligations.MovMemRegLoadsTheWord : Prop :=
  ∀ (rd : Reg) (addr : Word) (s : State) (d : Device) (v : Word), ReachesRam s (effectiveAddress addr) d →
    v = word (s.ram.read (ramCell (s.getReg .mb) (d.localAddr (effectiveAddress addr))))
      (s.ram.read (ramCell (s.getReg .mb) (d.localAddr (effectiveAddress addr) + 1))) →
    ∃ t, exec (.movMemReg addr rd.byte) s = .next t ∧
      t.getReg .pc = (if rd = .pc then v else s.getReg .pc) + 4 ∧ (rd ≠ .pc → t.getReg rd = v) ∧
      RegsSameBut s t [.pc, rd] ∧ CellsSameBut s t [] ∧ RestSame s t

/-- 42_data_movement.md R98, 20_memory.md R38, R44, R48: on the default device list `mov_mem_reg` completes at every
address but 0xFFFF, and which two bytes it reads. -/
def Obligations.LoadReadsLowOrSelectedBank : Prop :=
  ∀ (rd : Reg) (addr : Word) (s : State), s.devices = defaultDevices → addr ≠ 0xFFFF → rd ≠ .pc →
    ∃ t, exec (.movMemReg addr rd.byte) s = .next t ∧
      (addr.toNat < 0x7FFF → t.getReg rd = word (s.low addr.toNat) (s.low (addr.toNat + 1))) ∧
      (addr.toNat = 0x7FFF → t.getReg rd = word (s.low 0x7FFF) (s.bank ((s.getReg .mb).toNat % 4) 0)) ∧
      (0x8000 ≤ addr.toNat → t.getReg rd =
        word (s.bank ((s.getReg .mb).toNat % 4) (addr.toNat - 0x8000))
          (s.bank ((s.getReg .mb).toNat % 4) (addr.toNat + 1 - 0x8000)))

/-- 43_arithmetic.md R100, R101, 10_state.md R15, R22: `add_reg_reg` completes for every pair, writes the sum modulo 65536
of the operands as they were before into `ac`, and writes nothing else but the loop's advance. -/
def Obligations.AddRegRegWritesTheSumToAc : Prop :=
  ∀ (ra rb : Reg) (unused : Byte) (s : State),
    ∃ t, exec (.addRegReg ra.byte rb.byte unused) s = .next t ∧
      (t.getReg .ac).toNat = ((s.getReg ra).toNat + (s.getReg rb).toNat) % 65536 ∧
      t.getReg .pc = s.getReg .pc + 4 ∧ RegsSameBut s t [.pc, .ac] ∧ CellsSameBut s t [] ∧ RestSame s t

/-- 43_arithmetic.md R101: addition wraps modulo 65536 and is the same operation on unsigned and on two's-complement
operands. -/
def Obligations.AdditionIsTheSameSignedAndUnsigned : Prop :=
  ∀ a b : Word,
    (addWrap a b).toNat = (a.toNat + b.toNat) % 65536 ∧ addWrap a b = bits16 ((a.toNat : Int) + b.toNat) ∧
      addWrap a b = bits16 (signed16 a + signed16 b)

/-- A word that `mov_reg_mem` stores in the RAM device is what `mov_mem_reg` at the same address loads next:
70_reset_and_hazards.md R125, 20_memory.md R49. To `pc` the loop adds its 4 (10_state.md R21). On a list whose RAM device
has a narrower range than R43's it rests on log entry 2. -/
def Obligations.StoreThenLoadReturnsTheValue : Prop :=
  ∀ (rs rd : Reg) (addr : Word) (s : State) (d : Device), ReachesRam s addr d →
    ∃ t u, exec (.movRegMem rs.byte addr) s = .next t ∧ exec (.movMemReg addr rd.byte) t = .next u ∧
      u.getReg rd = s.getReg rs + if rd = .pc then 4 else 0

/-! ### Faults -/

/-- 30_encoding.md R72(b), 40_execution_engine.md R78, 60_exceptions.md R106: a register field of 16 or more ends every
instruction that has it in `DecodeFault(BadRegister)`, with its word and `pc`, whatever its bus access would have done. -/
def Obligations.BadRegisterFieldFaults : Prop :=
  ∀ (i : Instr) (s : State), (∃ b ∈ i.regFields, 16 ≤ b.toNat) →
    exec i s = .fault (.badRegister (encode i) (s.getReg .pc))

/-- 20_memory.md R37, R42, 42_data_movement.md R97, R98: where the 16-bit access faults, the memory instruction ends in
`BusFault` with the instruction, its `pc` and the address; on the default device list that is 0xFFFF. -/
def Obligations.BusFaultEndsTheMemoryInstruction : Prop :=
  (∀ (r : Reg) (addr : Word) (s : State), busWellFormed s.devices = true → check16 s.devices addr = none →
    exec (.movRegMem r.byte addr) s = .fault (.busFault (.movRegMem r.byte addr) (s.getReg .pc) addr) ∧
      exec (.movMemReg addr r.byte) s = .fault (.busFault (.movMemReg addr r.byte) (s.getReg .pc) addr)) ∧
    check16 defaultDevices 0xFFFF = none

/-- 20_memory.md R53, R31, R38, R39, R40: where the 16-bit access reaches an added device, both memory instructions
complete, and the device receives two requests, the byte at `addr` first and the byte at `addr + 1` second, at its local
addresses, and nothing else in the machine but the destination and `pc` changes. The bytes it answers are the parameter
`Config.deviceRead8`, free of any value, of the requests before each (log entry 3); after a failed check it receives none:
`FaultChangesNoState`. -/
def Obligations.AddedDeviceGetsBothBytesInOrder : Prop :=
  ∀ (r : Reg) (addr : Word) (s : State) (d : Device), ReachesAdded s (effectiveAddress addr) d →
    (∃ t, exec (.movRegMem r.byte addr) s = .next t ∧
      t.accesses = s.accesses ++ [⟨d, .write (d.localAddr (effectiveAddress addr)) (lo (s.getReg r))⟩,
        ⟨d, .write (d.localAddr (effectiveAddress addr) + 1) (hi (s.getReg r))⟩] ∧
      t.getReg .pc = s.getReg .pc + 4 ∧ RegsSameBut s t [.pc] ∧ CellsSameBut s t [] ∧ FixedSame s t) ∧
      ∀ v : Word, v = word (Config.deviceRead8 d (s.accessesOf d) (d.localAddr (effectiveAddress addr)))
          (Config.deviceRead8 d (s.accessesOf d ++ [.read (d.localAddr (effectiveAddress addr))])
            (d.localAddr (effectiveAddress addr) + 1)) →
        ∃ t, exec (.movMemReg addr r.byte) s = .next t ∧
          t.accesses = s.accesses ++ [⟨d, .read (d.localAddr (effectiveAddress addr))⟩,
            ⟨d, .read (d.localAddr (effectiveAddress addr) + 1)⟩] ∧
          t.getReg .pc = (if r = .pc then v else s.getReg .pc) + 4 ∧ (r ≠ .pc → t.getReg r = v) ∧
          RegsSameBut s t [.pc, r] ∧ CellsSameBut s t [] ∧ FixedSame s t

/-- 40_execution_engine.md R77: when fetch faults, and which word it reads otherwise. -/
def Obligations.FetchReadsTheProgramBuffer : Prop :=
  ∀ s : State,
    ((s.getReg .pc).toNat % 4 ≠ 0 ∨ s.program.length / 4 ≤ (s.getReg .pc).toNat / 4 →
      s.fetch = none ∧ step s = .fault (.fetchFault (s.getReg .pc))) ∧
      ∀ (b0 b1 b2 b3 : Byte) (rest : List Byte), (s.getReg .pc).toNat % 4 = 0 →
        s.program.drop (s.getReg .pc).toNat = b0 :: b1 :: b2 :: b3 :: rest →
        ∃ w, s.fetch = some w ∧
          w.toNat = b0.toNat ||| (b1.toNat <<< 8) ||| (b2.toNat <<< 16) ||| (b3.toNat <<< 24)

/-- 30_encoding.md R72(a), 40_execution_engine.md R78: a fetched word whose opcode byte is above 6 ends in
`DecodeFault(BadOpcode)` with that word and `pc`. -/
def Obligations.BadOpcodeFaults : Prop :=
  ∀ (s : State) (w : U32), s.fetch = some w → 7 ≤ w.toNat % 256 → step s = .fault (.badOpcode w (s.getReg .pc))

/-- 60_exceptions.md R103, R106, 40_execution_engine.md R79: what each outcome of `step()` other than `Continue` says of
the instruction at `pc`; the conditions are in the order of priority, each with the earlier ones passed. -/
def Obligations.OutcomesHaveTheirCauses : Prop :=
  ∀ s : State,
    (s.hostStep.outcome = .halted → ∃ w u, s.fetch = some w ∧ decodeWord w = some (.hlt u)) ∧
      (∀ p, s.hostStep.outcome = .faulted (.fetchFault p) → p = s.getReg .pc ∧ s.fetch = none) ∧
      (∀ w p, s.hostStep.outcome = .faulted (.badOpcode w p) →
        p = s.getReg .pc ∧ s.fetch = some w ∧ decodeWord w = none) ∧
      (∀ w p, s.hostStep.outcome = .faulted (.badRegister w p) →
        p = s.getReg .pc ∧ s.fetch = some w ∧ ∃ i, decodeWord w = some i ∧ i.regsOk = false) ∧
      ∀ i p a, s.hostStep.outcome = .faulted (.busFault i p a) →
        p = s.getReg .pc ∧ s.fetch = some (encode i) ∧ i.regsOk = true ∧ check16 s.devices a = none ∧
          ((∃ rs, i = .movRegMem rs a) ∨ ∃ rd, i = .movMemReg a rd)

/-- 60_exceptions.md R105, R108, 40_execution_engine.md R85: a fault changes no state, so the next `step()` returns the
same. -/
def Obligations.FaultChangesNoState : Prop :=
  ∀ (s : State) (r : Fault), s.hostStep.outcome = .faulted r →
    s.hostStep.after = s ∧ s.hostStep.after.hostStep = s.hostStep

/-- 40_execution_engine.md R84: at a `hlt`, `step()` returns it with `Halt` and changes nothing, again and again. -/
def Obligations.HaltIsIdempotent : Prop :=
  ∀ (s : State) (w : U32) (unused : BitVec 24), s.fetch = some w → decodeWord w = some (.hlt unused) →
    s.hostStep = ⟨some w, .halted, s⟩ ∧ step s = .next s ∧ ∀ n, Host.Core.run Sys2Proof.core n s = .next s

/-! ### The step and the host port -/

/-- 40_execution_engine.md R80: when the bytes at `pc` are those of an instruction, the step is `exec` of it, which has
the loop's advance in it (log entry 8). -/
def Obligations.StepRunsTheInstructionAtPc : Prop :=
  ∀ (s : State) (i : Instr) (rest : List Byte), (s.getReg .pc).toNat % 4 = 0 →
    s.program.drop (s.getReg .pc).toNat = encodeBytes i ++ rest → step s = exec i s

/-- 40_execution_engine.md R81, R82, 10_state.md R20: after every instruction that completes, is no `hlt` and does not name
`pc` as its destination, `pc` is 4 more, modulo 65536; after a `hlt` it is unchanged. -/
def Obligations.PcAdvancesByFourUnlessWritten : Prop :=
  ∀ (i : Instr) (s t : State), exec i s = .next t →
    (isHlt i = false → writesPc i = false → (t.getReg .pc).toNat = ((s.getReg .pc).toNat + 4) % 65536) ∧
      (isHlt i = true → t.getReg .pc = s.getReg .pc)

/-- 20_memory.md R58, 10_state.md R24, R26, R23: no step changes the program buffer, the device list or the status stub. -/
def Obligations.StepKeepsProgramDevicesAndStatus : Prop :=
  ∀ s t : State, step s = .next t → FixedSame s t

/-- 40_execution_engine.md R80, R81: the machine's step is the host port's `step()`: the same next state after `Continue`
and `Halt` (log entry 7), the same fault after `Fault`. -/
def Obligations.HostStepAndCoreStepAgree : Prop :=
  ∀ s : State,
    step s =
      match s.hostStep.outcome with
      | .continues => .next s.hostStep.after
      | .halted => .next s.hostStep.after
      | .faulted r => .fault r
      | .refused r => .refused r

/-- 40_execution_engine.md R86: `execute()` returns exactly when some number of `step()` calls reaches an outcome that is
not `Continue`, it returns one thing only, and that is not `Continue`. -/
def Obligations.ExecuteIsRepeatedStep : Prop :=
  (∀ (s : State) (r : StepReturn), Executes s r ↔ ∃ n, s.executeFor n = some r) ∧
    (∀ (s : State) (r r' : StepReturn), Executes s r → Executes s r' → r = r') ∧
    ∀ (s : State) (r : StepReturn), Executes s r → r.outcome ≠ .continues

/-- 40_execution_engine.md R89: which programs `load_program` takes, and that it changes the program buffer alone. -/
def Obligations.LoadProgramChecksAndInstalls : Prop :=
  ∀ (s : State) (addr : Word) (bytes : List Byte),
    (bytes.length ≠ 0 ∧ bytes.length % 4 = 0 ∧ bytes.length ≤ 65536 ∧ bytes[bytes.length - 4]? = some 0x01 →
      s.loadProgram addr bytes = .ok { s with program := bytes }) ∧
      (¬ (bytes.length ≠ 0 ∧ bytes.length % 4 = 0 ∧ bytes.length ≤ 65536 ∧ bytes[bytes.length - 4]? = some 0x01) →
        s.loadProgram addr bytes = .error .programInvariantViolation)

/-- 40_execution_engine.md R89, R84, 70_reset_and_hazards.md R126: a loaded program is fetched at once, and at its last
instruction the machine halts. -/
def Obligations.LoadedProgramEndsInHalt : Prop :=
  ∀ (s t : State) (addr : Word) (bytes : List Byte), s.loadProgram addr bytes = .ok t →
    ((s.getReg .pc).toNat % 4 = 0 → (s.getReg .pc).toNat < bytes.length → t.fetch ≠ none) ∧
      ((s.getReg .pc).toNat = bytes.length - 4 → t.hostStep.outcome = .halted ∧ t.halted = true ∧ step t = .next t)

/-- The model's loading aid (log entry 6): the word `withFetchWord` places is the word the next fetch reads. -/
def Obligations.PlacedWordIsFetched : Prop :=
  ∀ (s : State) (nbits w : Nat), (s.withFetchWord nbits w).fetch = some (tableWord nbits w)

/-! ### The ROM image -/

/-- 70_reset_and_hazards.md R122, R120: which files are malformed. The magic's bytes 7F 72 31 36 are not the source's: the
spec supplies them from general knowledge (93_implementation_defined.md G1; log entry 21, PRESUMED). -/
def Obligations.RomLoadRefusesMalformedFiles : Prop :=
  ∀ file : List Byte,
    Rom.load file = .error .malformedRom ↔
      file.length < 8 ∨ file.take 4 ≠ [0x7F, 0x72, 0x31, 0x36] ∨
        file.length < 8 + 16 * ((file.getD 6 0).toNat + 256 * (file.getD 7 0).toNat)

/-- 70_reset_and_hazards.md R123: the first entry with the id gives its bytes; no such entry is `UnknownRegion`; a payload
past the end of the file is `MalformedRom`. -/
def Obligations.GetRegionTakesTheFirstMatch : Prop :=
  ∀ (rom : Rom) (id : U32),
    ((∀ e ∈ rom.entries, e.id ≠ id) → rom.getRegion id = .error .unknownRegion) ∧
      ∀ (before after : List RegionEntry) (e : RegionEntry), rom.entries = before ++ e :: after → e.id = id →
        (∀ x ∈ before, x.id ≠ id) →
        (rom.file.length < e.offset.toNat + e.size.toNat → rom.getRegion id = .error .malformedRom) ∧
          ∀ pre bytes post : List Byte, rom.file = pre ++ bytes ++ post → pre.length = e.offset.toNat →
            bytes.length = e.size.toNat → rom.getRegion id = .ok bytes

/-- 70_reset_and_hazards.md R120, R121: a ROM file written with a header, a directory and payloads is loaded back with the
same version bytes and the same directory (`reserved` written 0). -/
def Obligations.RomImageLoadsBack : Prop :=
  ∀ (major minor : Byte) (entries : List RegionEntry) (payloads : List Byte), entries.length ≤ 65535 →
    Rom.load (romImage major minor entries payloads) =
      .ok ⟨romImage major minor entries payloads, major, minor, entries.map fun e => { e with reserved := 0 }⟩

/-! ### Whole-machine properties -/

/-- The invariant holds of the machine after reset (10_state.md R24, R25, R27, 20_memory.md R32). -/
def Obligations.InvariantHoldsAtReset : Prop := Inv State.reset

/-- From every state that meets the invariant (canonical RAM, well-formed device list, program buffer empty or loaded,
status stub zero) a step gives a state that meets it (10_state.md R23 to R26). -/
def Obligations.InvariantKeptByEveryStep : Prop := ∀ s t : State, Inv s → step s = .next t → Inv t

/-- The host's operations keep the invariant too: `reset()`, `load_program`, and the bus accesses between instructions
(40_execution_engine.md R88, R89, 20_memory.md R60), a read of an added device among them (R53). -/
def Obligations.InvariantKeptByTheHost : Prop :=
  ∀ s : State, Inv s →
    Inv s.hostReset ∧ (∀ addr bytes t, s.loadProgram addr bytes = .ok t → Inv t) ∧
      (∀ a b t, s.read8 a = .ok (b, t) → Inv t) ∧ (∀ a v t, s.memRead a = .ok (v, t) → Inv t) ∧
      (∀ a b t, s.write8 a b = .ok t → Inv t) ∧ ∀ a v t, s.memWrite a v = .ok t → Inv t

/-- On a well-formed device list, whatever devices are added, no run is ever refused, however long and whatever the
program and the RAM are (20_memory.md R32, R33, 60_exceptions.md R103; the refusal is the model's, log entry 4). -/
def Obligations.WellFormedBusRunsAreNeverRefused : Prop :=
  ∀ (s : State) (n : Nat) (r : Refusal), busWellFormed s.devices = true →
    Host.Core.run Sys2Proof.core n s ≠ .refused r

/-- 10_state.md R23: nothing observes the status stub: with another value in it, every operation of the host port
(40_execution_engine.md R88) has the same answer and leaves the same state but for the stub, which keeps its value; after
`reset()`, which zeroes it, even that is the same. That an added device answers by its requests alone, and so alike: log
entry 3. -/
def Obligations.StatusStubIsUnobservable : Prop :=
  ∀ (s : State) (v : Word),
    ({ s with status := v } : State).hostStep =
        ⟨s.hostStep.instruction, s.hostStep.outcome, { s.hostStep.after with status := v }⟩ ∧
      (∀ n : Nat, ({ s with status := v } : State).executeFor n =
        (s.executeFor n).map fun x => ⟨x.instruction, x.outcome, { x.after with status := v }⟩) ∧
      (∀ r : Reg, ({ s with status := v } : State).getReg r = s.getReg r) ∧
      (∀ a : Word, ({ s with status := v } : State).read8 a =
        (s.read8 a).map fun x => (x.1, { x.2 with status := v })) ∧
      (∀ a : Word, ({ s with status := v } : State).memRead a =
        (s.memRead a).map fun x => (x.1, { x.2 with status := v })) ∧
      (∀ (a : Word) (b : Byte), ({ s with status := v } : State).write8 a b =
        (s.write8 a b).map fun t => { t with status := v }) ∧
      (∀ a x : Word, ({ s with status := v } : State).memWrite a x =
        (s.memWrite a x).map fun t => { t with status := v }) ∧
      (∀ (a : Word) (bytes : List Byte), ({ s with status := v } : State).loadProgram a bytes =
        (s.loadProgram a bytes).map fun t => { t with status := v }) ∧
      ({ s with status := v } : State).hostReset = s.hostReset

/-- 10_state.md R29, 20_memory.md R44: a step does not learn a byte of a bank that `mb mod 4` does not select: with another
value there, it leaves the same registers and every other RAM byte the same, and the byte keeps its value. That an added
device answers by its requests alone, and so alike: log entry 3. -/
def Obligations.UnselectedBanksAreUnobservable : Prop :=
  ∀ (s t : State) (b i : Nat) (v : Byte), b < 4 → i < 0x8000 → b ≠ (s.getReg .mb).toNat % 4 → step s = .next t →
    ∃ t', step { s with ram := s.ram.write (bankCell b i) v } = .next t' ∧ t'.regs = t.regs ∧ RestSame t t' ∧
      t'.bank b i = v ∧ CellsSameBut t t' [bankCell b i]
end

