-- ==== Sys2Proof/Laws/Memory.lean ====
section
/-! SUPPORT. The laws of the RAM arrays: read after write, other cells left alone, canonical form kept, and where the
cells of the address map stand. -/

namespace Sys2Proof.Machine

@[simp] theorem Memory.read_nil (c : Nat) : Memory.read [] c = Config.ramInit c := rfl

theorem Memory.read_cons (k : Nat) (b : Byte) (m : Memory) (c : Nat) :
    Memory.read ((k, b) :: m) c = if k = c then b else m.read c := rfl

theorem Memory.read_insert_same (m : Memory) (c : Nat) (b : Byte) : (m.insert c b).read c = b := by
  induction m with
  | nil => simp [Memory.insert, Memory.read_cons]
  | cons e m ih =>
    obtain ⟨k, v⟩ := e
    unfold Memory.insert
    split
    · simp [Memory.read_cons]
    · split
      · simp [Memory.read_cons]
      · rename_i h1 h2
        rw [Memory.read_cons, if_neg (fun h => h2 h.symm), ih]

theorem Memory.read_insert_other (m : Memory) {c a : Nat} (b : Byte) (h : a ≠ c) :
    (m.insert c b).read a = m.read a := by
  have h' : ¬ c = a := fun e => h e.symm
  induction m with
  | nil => simp [Memory.insert, Memory.read_cons, h']
  | cons e m ih =>
    obtain ⟨k, v⟩ := e
    unfold Memory.insert
    split
    · rw [Memory.read_cons c, if_neg h']
    · split
      · rename_i h2
        subst h2
        rw [Memory.read_cons, if_neg h', Memory.read_cons, if_neg h']
      · rw [Memory.read_cons, Memory.read_cons, ih]

theorem Memory.erase_cons_same (v : Byte) (m : Memory) (c : Nat) : Memory.erase ((c, v) :: m) c = Memory.erase m c := by
  simp [Memory.erase]

theorem Memory.erase_cons_other (k : Nat) (v : Byte) (m : Memory) {c : Nat} (h : k ≠ c) :
    Memory.erase ((k, v) :: m) c = (k, v) :: Memory.erase m c := by
  simp [Memory.erase, h]

theorem Memory.read_erase_same (m : Memory) (c : Nat) : (m.erase c).read c = Config.ramInit c := by
  induction m with
  | nil => rfl
  | cons e m ih =>
    obtain ⟨k, v⟩ := e
    by_cases h : k = c
    · subst h; rw [Memory.erase_cons_same, ih]
    · rw [Memory.erase_cons_other k v m h, Memory.read_cons, if_neg h, ih]

theorem Memory.read_erase_other (m : Memory) {c a : Nat} (h : a ≠ c) : (m.erase c).read a = m.read a := by
  induction m with
  | nil => rfl
  | cons e m ih =>
    obtain ⟨k, v⟩ := e
    by_cases hk : k = c
    · subst hk
      rw [Memory.erase_cons_same, ih, Memory.read_cons, if_neg (fun e => h e.symm)]
    · rw [Memory.erase_cons_other k v m hk, Memory.read_cons, Memory.read_cons, ih]

/-- A cell reads what was last written to it, whatever the list. -/
@[simp] theorem Memory.read_write_same (m : Memory) (c : Nat) (b : Byte) : (m.write c b).read c = b := by
  unfold Memory.write
  split
  · rename_i h; rw [Memory.read_erase_same, h]
  · exact Memory.read_insert_same m c b

/-- A write leaves every other cell as it was, whatever the list. -/
theorem Memory.read_write_other (m : Memory) {c a : Nat} (b : Byte) (h : a ≠ c) : (m.write c b).read a = m.read a := by
  unfold Memory.write
  split
  · exact Memory.read_erase_other m h
  · exact Memory.read_insert_other m b h

theorem Memory.wf_nil : Memory.wf [] := ⟨List.Pairwise.nil, fun _ h => absurd h List.not_mem_nil⟩

theorem Memory.mem_insert {m : Memory} {c : Nat} {b : Byte} {e : Host.Cell} (h : e ∈ m.insert c b) :
    e = (c, b) ∨ e ∈ m := by
  induction m with
  | nil => exact .inl (by simpa [Memory.insert] using h)
  | cons x m ih =>
    obtain ⟨k, v⟩ := x
    unfold Memory.insert at h
    split at h
    · simpa using h
    · split at h
      · rcases List.mem_cons.1 h with h | h
        · exact .inl h
        · exact .inr (List.mem_cons_of_mem _ h)
      · rcases List.mem_cons.1 h with h | h
        · exact .inr (by simp [h])
        · rcases ih h with h | h
          · exact .inl h
          · exact .inr (List.mem_cons_of_mem _ h)

theorem Memory.insert_pairwise {m : Memory} (c : Nat) (b : Byte) (h : m.Pairwise fun x y => x.1 < y.1) :
    (m.insert c b).Pairwise fun x y => x.1 < y.1 := by
  induction m with
  | nil => simp [Memory.insert]
  | cons x m ih =>
    obtain ⟨k, v⟩ := x
    obtain ⟨hk, hm⟩ := List.pairwise_cons.1 h
    unfold Memory.insert
    split
    · rename_i hck
      refine List.pairwise_cons.2 ⟨fun y hy => ?_, h⟩
      rcases List.mem_cons.1 hy with rfl | hy
      · exact hck
      · exact lt_trans hck (hk y hy)
    · split
      · rename_i hck
        subst hck
        exact List.pairwise_cons.2 ⟨hk, hm⟩
      · rename_i h1 h2
        refine List.pairwise_cons.2 ⟨fun y hy => ?_, ih hm⟩
        rcases Memory.mem_insert hy with rfl | hy
        · exact show k < c by omega
        · exact hk y hy

/-- Every write to a cell of the device keeps the canonical form. -/
theorem Memory.write_wf {m : Memory} (h : m.wf) {c : Nat} (hc : c < ramCells) (b : Byte) : (m.write c b).wf := by
  obtain ⟨hp, he⟩ := h
  unfold Memory.write
  split
  · exact ⟨hp.sublist List.filter_sublist, fun e hm => he e (List.mem_filter.1 hm).1⟩
  · rename_i hb
    refine ⟨Memory.insert_pairwise c b hp, fun e hm => ?_⟩
    rcases Memory.mem_insert hm with rfl | hm
    · exact ⟨hc, hb⟩
    · exact he e hm

/-! ### The cells of the address map -/

theorem bankOf_lt (mb : Word) : bankOf mb < 4 := Nat.mod_lt _ (by decide)

theorem ramCell_low {mb a : Word} (h : a.toNat ≤ 0x7FFF) : ramCell mb a = lowCell a.toNat := by
  simp [ramCell, h]

theorem ramCell_high {mb a : Word} (h : 0x8000 ≤ a.toNat) :
    ramCell mb a = bankCell (bankOf mb) (a.toNat - 0x8000) := by
  rw [ramCell, if_neg (by omega)]

/-- Every data address has a cell of the device behind it. -/
theorem ramCell_lt (mb a : Word) : ramCell mb a < ramCells := by
  have h1 := bankOf_lt mb
  have h2 := a.isLt
  unfold ramCell lowCell bankCell ramCells
  split <;> omega

/-- Under one bank register, different addresses have different cells. -/
theorem ramCell_inj {mb a a' : Word} : ramCell mb a = ramCell mb a' ↔ a = a' := by
  constructor
  · intro h
    apply BitVec.eq_of_toNat_eq
    have h2 := a.isLt
    have h3 := a'.isLt
    unfold ramCell lowCell bankCell at h
    split at h <;> split at h <;> omega
  · rintro rfl; rfl

end Sys2Proof.Machine
end

