-- ==== Sys2Proof/Laws/State.lean ====
section
/-! SUPPORT. One lemma per field per update of the state, and the register file's read-after-write laws. -/

namespace Sys2Proof.Machine

@[simp] theorem RegFile.get_set_same (f : RegFile) (r : Reg) (v : Word) : (f.set r v).get r = v := by
  cases r <;> rfl

theorem RegFile.get_set_other (f : RegFile) {r q : Reg} (v : Word) (h : q ≠ r) : (f.set r v).get q = f.get q := by
  cases r <;> cases q <;> first | rfl | exact absurd rfl h

@[simp] theorem RegFile.get_zero (r : Reg) : RegFile.zero.get r = 0 := by
  cases r <;> rfl

/-- Two register files that read the same everywhere are equal. -/
theorem RegFile.ext_get {f g : RegFile} (h : ∀ r, f.get r = g.get r) : f = g := by
  have hpc := h .pc; have hac := h .ac; have hsp := h .sp; have hfp := h .fp
  have him := h .im; have hmb := h .mb; have hps := h .ps; have hfl := h .fl
  have h0 := h .r0; have h1 := h .r1; have h2 := h .r2; have h3 := h .r3
  have h4 := h .r4; have h5 := h .r5; have h6 := h .r6; have h7 := h .r7
  cases f; cases g
  simp only [RegFile.get] at *
  subst_vars; rfl

@[simp] theorem RegFile.set_get_same (f : RegFile) (r : Reg) : f.set r (f.get r) = f := by
  cases r <;> rfl

@[simp] theorem State.getReg_setReg_same (s : State) (r : Reg) (v : Word) : (s.setReg r v).getReg r = v :=
  RegFile.get_set_same s.regs r v

theorem State.getReg_setReg_other (s : State) {r q : Reg} (v : Word) (h : q ≠ r) :
    (s.setReg r v).getReg q = s.getReg q := RegFile.get_set_other s.regs v h

@[simp] theorem State.setReg_status (s : State) (r : Reg) (v : Word) : (s.setReg r v).status = s.status := rfl
@[simp] theorem State.setReg_program (s : State) (r : Reg) (v : Word) : (s.setReg r v).program = s.program := rfl
@[simp] theorem State.setReg_ram (s : State) (r : Reg) (v : Word) : (s.setReg r v).ram = s.ram := rfl
@[simp] theorem State.setReg_devices (s : State) (r : Reg) (v : Word) : (s.setReg r v).devices = s.devices := rfl
@[simp] theorem State.setReg_accesses (s : State) (r : Reg) (v : Word) : (s.setReg r v).accesses = s.accesses := rfl

@[simp] theorem State.advance_status (s : State) : s.advance.status = s.status := rfl
@[simp] theorem State.advance_program (s : State) : s.advance.program = s.program := rfl
@[simp] theorem State.advance_ram (s : State) : s.advance.ram = s.ram := rfl
@[simp] theorem State.advance_devices (s : State) : s.advance.devices = s.devices := rfl
@[simp] theorem State.advance_accesses (s : State) : s.advance.accesses = s.accesses := rfl
@[simp] theorem State.advance_pc (s : State) : s.advance.getReg .pc = s.getReg .pc + 4 :=
  State.getReg_setReg_same s .pc _

theorem State.advance_other (s : State) {r : Reg} (h : r ≠ .pc) : s.advance.getReg r = s.getReg r :=
  State.getReg_setReg_other s _ h

@[simp] theorem State.ramWrite8_regs (s : State) (a : Word) (b : Byte) : (s.ramWrite8 a b).regs = s.regs := rfl
@[simp] theorem State.ramWrite8_status (s : State) (a : Word) (b : Byte) : (s.ramWrite8 a b).status = s.status := rfl
@[simp] theorem State.ramWrite8_program (s : State) (a : Word) (b : Byte) : (s.ramWrite8 a b).program = s.program := rfl
@[simp] theorem State.ramWrite8_devices (s : State) (a : Word) (b : Byte) : (s.ramWrite8 a b).devices = s.devices := rfl
@[simp] theorem State.ramWrite8_accesses (s : State) (a : Word) (b : Byte) : (s.ramWrite8 a b).accesses = s.accesses := rfl
@[simp] theorem State.ramWrite8_getReg (s : State) (a : Word) (b : Byte) (r : Reg) :
    (s.ramWrite8 a b).getReg r = s.getReg r := rfl
@[simp] theorem State.ramWrite8_ram (s : State) (a : Word) (b : Byte) :
    (s.ramWrite8 a b).ram = s.ram.write (ramCell (s.getReg .mb) a) b := rfl

@[simp] theorem State.noteAccess_regs (s : State) (d : Device) (x : Access) : (s.noteAccess d x).regs = s.regs := rfl
@[simp] theorem State.noteAccess_status (s : State) (d : Device) (x : Access) : (s.noteAccess d x).status = s.status := rfl
@[simp] theorem State.noteAccess_program (s : State) (d : Device) (x : Access) : (s.noteAccess d x).program = s.program := rfl
@[simp] theorem State.noteAccess_ram (s : State) (d : Device) (x : Access) : (s.noteAccess d x).ram = s.ram := rfl
@[simp] theorem State.noteAccess_devices (s : State) (d : Device) (x : Access) : (s.noteAccess d x).devices = s.devices := rfl
@[simp] theorem State.noteAccess_getReg (s : State) (d : Device) (x : Access) (r : Reg) :
    (s.noteAccess d x).getReg r = s.getReg r := rfl
@[simp] theorem State.noteAccess_accesses (s : State) (d : Device) (x : Access) :
    (s.noteAccess d x).accesses = s.accesses ++ [⟨d, x⟩] := rfl

/-- The device itself finds the new request at the end of those it has received. -/
theorem State.accessesOf_noteAccess_same (s : State) (d : Device) (x : Access) :
    (s.noteAccess d x).accessesOf d = s.accessesOf d ++ [x] := by
  simp [State.accessesOf]

/-- Another device finds the requests it has received unchanged. -/
theorem State.accessesOf_noteAccess_other (s : State) {d e : Device} (x : Access) (h : d ≠ e) :
    (s.noteAccess d x).accessesOf e = s.accessesOf e := by
  simp [State.accessesOf, h]

end Sys2Proof.Machine
end

