-- ==== Sys2Proof/Laws/Bus.lean ====
section
/-! SUPPORT. What the router and the bus accesses can answer, said once for each (20_memory.md R33 to R42). -/

namespace Sys2Proof.Machine

@[simp] theorem BusResult.map_ok {α β : Type} (f : α → β) (a : α) : (BusResult.ok a).map f = .ok (f a) := rfl
@[simp] theorem BusResult.map_busFault {α β : Type} (f : α → β) (a : Word) :
    (BusResult.busFault a : BusResult α).map f = .busFault a := rfl
@[simp] theorem BusResult.map_refused {α β : Type} (f : α → β) (r : Refusal) :
    (BusResult.refused r : BusResult α).map f = .refused r := rfl

theorem BusResult.map_eq_ok {α β : Type} {x : BusResult α} {f : α → β} {b : β} :
    x.map f = .ok b ↔ ∃ a, x = .ok a ∧ b = f a := by
  cases x <;> simp [eq_comm]

theorem BusResult.map_eq_busFault {α β : Type} {x : BusResult α} {f : α → β} {a : Word} :
    x.map f = .busFault a ↔ x = .busFault a := by
  cases x <;> simp

theorem BusResult.map_eq_refused {α β : Type} {x : BusResult α} {f : α → β} {r : Refusal} :
    x.map f = .refused r ↔ x = .refused r := by
  cases x <;> simp

theorem BusResult.map_map {α β γ : Type} (x : BusResult α) (f : α → β) (g : β → γ) :
    (x.map f).map g = x.map fun a => g (f a) := by
  cases x <;> rfl

/-- What the router can answer: the device, the bus fault with the address, or the refusal of an ill-formed list. -/
theorem State.routed_cases (s : State) (a : Word) (found : Option Device) :
    (∃ d, busWellFormed s.devices = true ∧ found = some d ∧ s.routed a found = .ok d) ∨
      (busWellFormed s.devices = true ∧ found = none ∧ s.routed a found = .busFault a) ∨
      (busWellFormed s.devices = false ∧ s.routed a found = .refused .illFormedDeviceList) := by
  unfold State.routed
  cases busWellFormed s.devices <;> cases found <;> simp

theorem State.routed_eq_ok {s : State} {a : Word} {found : Option Device} {d : Device} :
    s.routed a found = .ok d ↔ busWellFormed s.devices = true ∧ found = some d := by
  rcases s.routed_cases a found with ⟨e, hw, hf, h⟩ | ⟨hw, hf, h⟩ | ⟨hw, h⟩ <;> rw [h] <;> simp [*]

theorem State.routed_eq_busFault {s : State} {a b : Word} {found : Option Device} :
    s.routed a found = .busFault b ↔ busWellFormed s.devices = true ∧ found = none ∧ b = a := by
  rcases s.routed_cases a found with ⟨e, hw, hf, h⟩ | ⟨hw, hf, h⟩ | ⟨hw, h⟩ <;> rw [h] <;> simp [*, eq_comm]

theorem State.routed_eq_refused {s : State} {a : Word} {found : Option Device} {r : Refusal} :
    s.routed a found = .refused r ↔ busWellFormed s.devices = false ∧ r = .illFormedDeviceList := by
  rcases s.routed_cases a found with ⟨e, hw, hf, h⟩ | ⟨hw, hf, h⟩ | ⟨hw, h⟩ <;> rw [h] <;> simp [*, eq_comm]

/-! ### One device -/

/-- Device 0 of a well-formed list is the RAM device and does not remap (20_memory.md R32(a), R43). -/
theorem busWellFormed_head {devices : List Device} {d : Device} (hw : busWellFormed devices = true)
    (h : devices.head? = some d) : d.kind = .bankedRam ∧ d.remap = false := by
  cases devices with
  | nil => simp at h
  | cons e rest =>
    simp only [List.head?_cons, Option.some.injEq] at h
    subst h
    simp_all [busWellFormed]

/-- A device of a well-formed list is device 0 or an added device. -/
theorem busWellFormed_mem {devices : List Device} {d : Device} (hw : busWellFormed devices = true) (h : d ∈ devices) :
    devices.head? = some d ∨ d.kind = .other := by
  cases devices with
  | nil => simp at h
  | cons e rest =>
    rcases List.mem_cons.1 h with rfl | h
    · exact .inl rfl
    · simp only [busWellFormed, Bool.and_eq_true, List.all_eq_true, decide_eq_true_eq] at hw
      exact .inr (hw.2 d h).1.1

theorem findDevice_mem {devices : List Device} {a : Word} {d : Device} (h : findDevice devices a = some d) :
    d ∈ devices := by
  unfold findDevice at h
  split at h
  · exact List.mem_of_mem_head? h
  · exact List.mem_of_find?_eq_some h

theorem check16_findDevice {devices : List Device} {a : Word} {d : Device} (h : check16 devices a = some d) :
    findDevice devices a = some d := by
  unfold check16 at h
  split at h
  · simp at h
  · split at h
    · simp at h
    · split at h <;> simp_all

theorem State.deviceRead8_ram {s : State} {d : Device} (h : d.kind = .bankedRam) (l : Word) :
    s.deviceRead8 d l = (s.ramRead8 l, s) := by
  simp [State.deviceRead8, h]

theorem State.deviceRead8_added {s : State} {d : Device} (h : d.kind = .other) (l : Word) :
    s.deviceRead8 d l = (Config.deviceRead8 d (s.accessesOf d) l, s.noteAccess d (.read l)) := by
  simp [State.deviceRead8, h]

theorem State.deviceWrite8_ram {s : State} {d : Device} (h : d.kind = .bankedRam) (l : Word) (b : Byte) :
    s.deviceWrite8 d l b = s.ramWrite8 l b := by
  simp [State.deviceWrite8, h]

theorem State.deviceWrite8_added {s : State} {d : Device} (h : d.kind = .other) (l : Word) (b : Byte) :
    s.deviceWrite8 d l b = s.noteAccess d (.write l b) := by
  simp [State.deviceWrite8, h]

theorem State.deviceRead16_ram {s : State} {d : Device} (h : d.kind = .bankedRam) (l : Word) :
    s.deviceRead16 d l = (word (s.ramRead8 l) (s.ramRead8 (l + 1)), s) := by
  simp [State.deviceRead16, State.deviceRead8_ram h]

theorem State.deviceRead16_added {s : State} {d : Device} (h : d.kind = .other) (l : Word) :
    s.deviceRead16 d l =
      (word (Config.deviceRead8 d (s.accessesOf d) l) (Config.deviceRead8 d (s.accessesOf d ++ [.read l]) (l + 1)),
        (s.noteAccess d (.read l)).noteAccess d (.read (l + 1))) := by
  simp [State.deviceRead16, State.deviceRead8_added h, State.accessesOf_noteAccess_same]

theorem State.deviceWrite16_ram {s : State} {d : Device} (h : d.kind = .bankedRam) (l v : Word) :
    s.deviceWrite16 d l v = (s.ramWrite8 l (lo v)).ramWrite8 (l + 1) (hi v) := by
  simp [State.deviceWrite16, State.deviceWrite8_ram h]

theorem State.deviceWrite16_added {s : State} {d : Device} (h : d.kind = .other) (l v : Word) :
    s.deviceWrite16 d l v = (s.noteAccess d (.write l (lo v))).noteAccess d (.write (l + 1) (hi v)) := by
  simp [State.deviceWrite16, State.deviceWrite8_added h]

/-- What a device's 16-bit read leaves: everything but the added devices' requests as it was. -/
theorem State.deviceRead16_frame (s : State) (d : Device) (l : Word) :
    (s.deviceRead16 d l).2.regs = s.regs ∧ (s.deviceRead16 d l).2.ram = s.ram ∧ FixedSame s (s.deviceRead16 d l).2 := by
  cases h : d.kind with
  | bankedRam => rw [State.deviceRead16_ram h]; exact ⟨rfl, rfl, rfl, rfl, rfl⟩
  | other => rw [State.deviceRead16_added h]; exact ⟨rfl, rfl, rfl, rfl, rfl⟩

/-- What a device's 16-bit write leaves: the registers and the fixed state as they were. -/
theorem State.deviceWrite16_frame (s : State) (d : Device) (l v : Word) :
    (s.deviceWrite16 d l v).regs = s.regs ∧ FixedSame s (s.deviceWrite16 d l v) := by
  cases h : d.kind with
  | bankedRam => rw [State.deviceWrite16_ram h]; exact ⟨rfl, rfl, rfl, rfl⟩
  | other => rw [State.deviceWrite16_added h]; exact ⟨rfl, rfl, rfl, rfl⟩

/-! ### The bus accesses -/

/-- `Read8` answers exactly when a device of a well-formed list owns the address. -/
theorem State.read8_eq_ok {s : State} {a : Word} {x : Byte × State} :
    s.read8 a = .ok x ↔ ∃ d, busWellFormed s.devices = true ∧ findDevice s.devices a = some d ∧
      x = s.deviceRead8 d (d.localAddr a) := by
  simp only [State.read8, BusResult.map_eq_ok, State.routed_eq_ok, and_assoc]

/-- `Write8` succeeds exactly when a device of a well-formed list owns the address. -/
theorem State.write8_eq_ok {s t : State} {a : Word} {b : Byte} :
    s.write8 a b = .ok t ↔ ∃ d, busWellFormed s.devices = true ∧ findDevice s.devices a = some d ∧
      t = s.deviceWrite8 d (d.localAddr a) b := by
  simp only [State.write8, BusResult.map_eq_ok, State.routed_eq_ok, and_assoc]

/-- `MemRead` answers exactly when the checks of R37 pass on a well-formed list. -/
theorem State.memRead_eq_ok {s : State} {a : Word} {x : Word × State} :
    s.memRead a = .ok x ↔ ∃ d, busWellFormed s.devices = true ∧ check16 s.devices a = some d ∧
      x = s.deviceRead16 d (d.localAddr a) := by
  simp only [State.memRead, BusResult.map_eq_ok, State.routed_eq_ok, and_assoc]

/-- `MemWrite` succeeds exactly when the checks of R37 pass on a well-formed list. -/
theorem State.memWrite_eq_ok {s t : State} {a v : Word} :
    s.memWrite a v = .ok t ↔ ∃ d, busWellFormed s.devices = true ∧ check16 s.devices a = some d ∧
      t = s.deviceWrite16 d (d.localAddr a) v := by
  simp only [State.memWrite, BusResult.map_eq_ok, State.routed_eq_ok, and_assoc]

theorem ReachesRam.kind {s : State} {a : Word} {d : Device} (h : ReachesRam s a d) : d.kind = .bankedRam :=
  (busWellFormed_head h.1 h.2.2).1

/-- The RAM device's local address is the bus address (20_memory.md R43). -/
theorem ReachesRam.localAddr {s : State} {a : Word} {d : Device} (h : ReachesRam s a d) : d.localAddr a = a := by
  simp [Device.localAddr, (busWellFormed_head h.1 h.2.2).2]

/-- `MemRead` where it reaches the RAM device: the word of two cells, and no change. -/
theorem ReachesRam.memRead {s : State} {a : Word} {d : Device} (h : ReachesRam s a d) :
    s.memRead a = .ok (word (s.ramRead8 a) (s.ramRead8 (a + 1)), s) :=
  State.memRead_eq_ok.2 ⟨d, h.1, h.2.1, by rw [State.deviceRead16_ram h.kind, h.localAddr]⟩

/-- `MemWrite` where it reaches the RAM device: two cells written, low byte first. -/
theorem ReachesRam.memWrite {s : State} {a : Word} {d : Device} (h : ReachesRam s a d) (v : Word) :
    s.memWrite a v = .ok ((s.ramWrite8 a (lo v)).ramWrite8 (a + 1) (hi v)) :=
  State.memWrite_eq_ok.2 ⟨d, h.1, h.2.1, by rw [State.deviceWrite16_ram h.kind, h.localAddr]⟩

/-- `MemRead` is a bus fault exactly when `check16` faults: a byte access never does. -/
theorem State.memRead_eq_busFault {s : State} {a b : Word} :
    s.memRead a = .busFault b ↔ busWellFormed s.devices = true ∧ check16 s.devices a = none ∧ b = a := by
  simp only [State.memRead, BusResult.map_eq_busFault, State.routed_eq_busFault]

/-- `MemWrite` is a bus fault exactly when `check16` faults: a byte access never does. -/
theorem State.memWrite_eq_busFault {s : State} {a b v : Word} :
    s.memWrite a v = .busFault b ↔ busWellFormed s.devices = true ∧ check16 s.devices a = none ∧ b = a := by
  simp only [State.memWrite, BusResult.map_eq_busFault, State.routed_eq_busFault]

/-- `MemRead` is refused on an ill-formed list alone. -/
theorem State.memRead_eq_refused {s : State} {a : Word} {r : Refusal} :
    s.memRead a = .refused r ↔ busWellFormed s.devices = false ∧ r = .illFormedDeviceList := by
  simp only [State.memRead, BusResult.map_eq_refused, State.routed_eq_refused]

/-- `MemWrite` is refused on an ill-formed list alone. -/
theorem State.memWrite_eq_refused {s : State} {a v : Word} {r : Refusal} :
    s.memWrite a v = .refused r ↔ busWellFormed s.devices = false ∧ r = .illFormedDeviceList := by
  simp only [State.memWrite, BusResult.map_eq_refused, State.routed_eq_refused]

/-! ### The default device list -/

theorem defaultDevices_wellFormed : busWellFormed defaultDevices = true := by decide

theorem bankedRamDevice_claims (a : Word) : bankedRamDevice.claims a = true := by
  have := a.isLt
  simp [Device.claims, bankedRamDevice]
  omega

@[simp] theorem bankedRamDevice_localAddr (a : Word) : bankedRamDevice.localAddr a = a := rfl

/-- Under the default list every address is the RAM device's (20_memory.md R33). -/
theorem findDevice_default (a : Word) : findDevice defaultDevices a = some bankedRamDevice := by
  unfold findDevice defaultDevices
  split
  · rfl
  · simp [List.find?, bankedRamDevice_claims]

/-- Under the default list a 16-bit access faults at 0xFFFF alone (20_memory.md R51). -/
theorem check16_default {a : Word} (h : a ≠ 0xFFFF) : check16 defaultDevices a = some bankedRamDevice := by
  have h1 : a.toNat ≠ 0xFFFF := fun e => h (BitVec.eq_of_toNat_eq e)
  have h2 := a.isLt
  have h3 : bankedRamDevice.stop.toNat = 65535 := rfl
  simp only [check16, findDevice_default, if_neg h1]
  rw [if_neg (by omega)]

theorem reachesRam_default {s : State} {a : Word} (hd : s.devices = defaultDevices) (h : a ≠ 0xFFFF) :
    ReachesRam s a bankedRamDevice := by
  unfold ReachesRam
  rw [hd]
  exact ⟨defaultDevices_wellFormed, check16_default h, rfl⟩

end Sys2Proof.Machine
end

