-- ==== Sys2Proof/Laws/Codec.lean ====
section
/-! SUPPORT. The small lemmas of the codec: the word decomposition, opcode bytes and register bytes. -/

namespace Sys2Proof

@[simp] theorem lo_toNat (v : Word) : (lo v).toNat = v.toNat % 256 := by simp [lo]

@[simp] theorem hi_toNat (v : Word) : (hi v).toNat = v.toNat / 256 := by
  have := v.isLt
  simp [hi]; omega

@[simp] theorem word_toNat (l h : Byte) : (word l h).toNat = l.toNat + 256 * h.toNat := by
  have h1 := l.isLt; have h2 := h.isLt
  simp [word]; omega

@[simp] theorem Record.toU32_toNat (x : Record) :
    x.toU32.toNat = x.opcode.toNat + 256 * x.arg0.toNat + 65536 * x.arg1.toNat + 16777216 * x.arg2.toNat := by
  have h0 := x.opcode.isLt; have h1 := x.arg0.isLt; have h2 := x.arg1.isLt; have h3 := x.arg2.isLt
  simp [Record.toU32]; omega

@[simp] theorem unusedField_toNat (a b c : Byte) :
    (unusedField a b c).toNat = a.toNat + 256 * b.toNat + 65536 * c.toNat := by
  have h0 := a.isLt; have h1 := b.isLt; have h2 := c.isLt
  simp [unusedField]; omega

@[simp] theorem lo_word (l h : Byte) : lo (word l h) = l := by
  have := l.isLt
  apply BitVec.eq_of_toNat_eq; simp; omega

@[simp] theorem hi_word (l h : Byte) : hi (word l h) = h := by
  have := l.isLt
  apply BitVec.eq_of_toNat_eq; simp; omega

@[simp] theorem word_lo_hi (v : Word) : word (lo v) (hi v) = v := by
  apply BitVec.eq_of_toNat_eq; simp; omega

@[simp] theorem Opcode.ofByte?_byte (op : Opcode) : Opcode.ofByte? op.byte = some op := by
  cases op <;> rfl

/-- An opcode byte names an opcode exactly when it is that opcode's byte. -/
theorem Opcode.ofByte?_eq_some (b : Byte) (op : Opcode) : Opcode.ofByte? b = some op ↔ b = op.byte := by
  constructor
  · intro h
    obtain ⟨hl, -⟩ := List.getElem?_eq_some_iff.1 h
    have hb : b.toNat < 7 := hl
    unfold Opcode.ofByte? at h
    apply BitVec.eq_of_toNat_eq
    generalize b.toNat = n at h hb ⊢
    interval_cases n <;> (cases h; rfl)
  · rintro rfl; exact Opcode.ofByte?_byte op

/-- An opcode byte names no opcode exactly when it is above 6. -/
theorem Opcode.ofByte?_eq_none (b : Byte) : Opcode.ofByte? b = none ↔ 6 < b.toNat := by
  simp only [Opcode.ofByte?, List.getElem?_eq_none_iff]
  exact Nat.succ_le_iff

@[simp] theorem Reg.ofByte?_byte (r : Reg) : Reg.ofByte? r.byte = some r := by
  cases r <;> rfl

theorem Reg.byte_inj {r q : Reg} : r.byte = q.byte ↔ r = q := by
  constructor
  · intro h
    have := congrArg Reg.ofByte? h
    simpa using this
  · rintro rfl; rfl

/-- An operand byte names a register exactly when it is that register's byte. -/
theorem Reg.ofByte?_eq_some (b : Byte) (r : Reg) : Reg.ofByte? b = some r ↔ b = r.byte := by
  constructor
  · intro h
    unfold Reg.ofByte? at h
    split at h <;> cases h
    all_goals (apply BitVec.eq_of_toNat_eq; assumption)
  · rintro rfl; exact Reg.ofByte?_byte r

/-- An operand byte names no register exactly when it is 16 or more. -/
theorem Reg.ofByte?_eq_none (b : Byte) : Reg.ofByte? b = none ↔ 15 < b.toNat := by
  constructor
  · intro h
    by_contra hb
    have hb : b.toNat < 16 := by omega
    unfold Reg.ofByte? at h
    generalize b.toNat = n at h hb
    interval_cases n <;> cases h
  · intro h
    cases hr : Reg.ofByte? b with
    | none => rfl
    | some r =>
      have := (Reg.ofByte?_eq_some b r).1 hr
      subst this
      cases r <;> exact absurd h (by decide)

end Sys2Proof
end

