-- ==== Sys2Proof/Laws/Exec.lean ====
section
/-! SUPPORT. What the dispatch can do, said once: the operand checks, the bus access of a memory instruction, and the cases
of an instruction that answers a next state. -/

namespace Sys2Proof.Machine

@[simp] theorem withReg_byte (i : Instr) (s : State) (r : Reg) (k : Reg → Flow) : withReg i s r.byte k = k r := by
  simp [withReg]

/-- A register field of 16 or more ends in `DecodeFault(BadRegister)` whatever the handler is. -/
theorem withReg_bad {i : Instr} {s : State} {b : Byte} {k : Reg → Flow} (h : 15 < b.toNat) :
    withReg i s b k = .faults (.badRegister (encode i) s.pc) := by
  simp [withReg, (Reg.ofByte?_eq_none b).2 h]

/-- Either the operand names a register and the handler runs with it, or the check faults. -/
theorem withReg_cases (i : Instr) (s : State) (b : Byte) (k : Reg → Flow) :
    (∃ r, b = Reg.byte r ∧ withReg i s b k = k r) ∨
      (15 < b.toNat ∧ withReg i s b k = .faults (.badRegister (encode i) s.pc)) := by
  cases h : Reg.ofByte? b with
  | some r =>
    have := (Reg.ofByte?_eq_some b r).1 h
    exact .inl ⟨r, this, by simp [withReg, h]⟩
  | none =>
    have := (Reg.ofByte?_eq_none b).1 h
    exact .inr ⟨this, withReg_bad this⟩

theorem withReg_eq_continues {i : Instr} {s t : State} {b : Byte} {k : Reg → Flow} :
    withReg i s b k = .continues t ↔ ∃ r, b = Reg.byte r ∧ k r = .continues t := by
  constructor
  · intro h
    rcases withReg_cases i s b k with ⟨r, hb, hr⟩ | ⟨-, hr⟩
    · exact ⟨r, hb, hr ▸ h⟩
    · simp [hr] at h
  · rintro ⟨r, rfl, h⟩; simpa using h

theorem withReg_eq_halts {i : Instr} {s t : State} {b : Byte} {k : Reg → Flow} :
    withReg i s b k = .halts t ↔ ∃ r, b = Reg.byte r ∧ k r = .halts t := by
  constructor
  · intro h
    rcases withReg_cases i s b k with ⟨r, hb, hr⟩ | ⟨-, hr⟩
    · exact ⟨r, hb, hr ▸ h⟩
    · simp [hr] at h
  · rintro ⟨r, rfl, h⟩; simpa using h

theorem onBus_eq_continues {α : Type} {i : Instr} {s t : State} {x : BusResult α} {k : α → Flow} :
    onBus i s x k = .continues t ↔ ∃ v, x = .ok v ∧ k v = .continues t := by
  cases x <;> simp [onBus]

theorem onBus_eq_halts {α : Type} {i : Instr} {s t : State} {x : BusResult α} {k : α → Flow} :
    onBus i s x k = .halts t ↔ ∃ v, x = .ok v ∧ k v = .halts t := by
  cases x <;> simp [onBus]

/-- The arms of `exec` are those of `execute_one` with the loop's part added. -/
theorem exec_eq_finish (i : Instr) (s : State) : exec i s = (executeOne i s).finish := by
  cases i <;> rfl

theorem Flow.finish_eq_next {f : Flow} {t : State} :
    f.finish = .next t ↔ (∃ s', f = .continues s' ∧ t = s'.advance) ∨ f = .halts t := by
  cases f <;> simp [Flow.finish, eq_comm]

/-- What `execute_one` can leave when its outcome is `Continue`: the state as it was, one register written, one word
stored, or one word loaded into a register. -/
theorem executeOne_continues_cases {i : Instr} {s t : State} (h : executeOne i s = .continues t) :
    t = s ∨ (∃ r v, t = s.setReg r v) ∨ (∃ a v, s.memWrite a v = .ok t) ∨
      ∃ a r x, s.memRead a = .ok x ∧ t = x.2.setReg r x.1 := by
  cases i with
  | nop u => exact .inl (by simpa [executeOne, flowNop, eq_comm] using h)
  | hlt u => simp [executeOne, flowHlt] at h
  | movLitReg imm rd =>
    obtain ⟨r, -, h⟩ := withReg_eq_continues.1 h
    exact .inr (.inl ⟨r, imm, by simpa [eq_comm] using h⟩)
  | movRegReg rs rd u =>
    obtain ⟨r, -, h⟩ := withReg_eq_continues.1 h
    obtain ⟨d, -, h⟩ := withReg_eq_continues.1 h
    exact .inr (.inl ⟨d, s.getReg r, by simpa [eq_comm] using h⟩)
  | movRegMem rs addr =>
    obtain ⟨r, -, h⟩ := withReg_eq_continues.1 h
    obtain ⟨s', hw, h⟩ := onBus_eq_continues.1 h
    cases h
    exact .inr (.inr (.inl ⟨_, _, hw⟩))
  | movMemReg addr rd =>
    obtain ⟨d, -, h⟩ := withReg_eq_continues.1 h
    obtain ⟨x, hr, h⟩ := onBus_eq_continues.1 h
    exact .inr (.inr (.inr ⟨_, d, x, hr, by simpa [eq_comm] using h⟩))
  | addRegReg ra rb u =>
    obtain ⟨a, -, h⟩ := withReg_eq_continues.1 h
    obtain ⟨b, -, h⟩ := withReg_eq_continues.1 h
    exact .inr (.inl ⟨.ac, _, by simpa [eq_comm] using h⟩)

/-- `execute_one` answers `Halt` for `hlt` alone, and then the state is as it was. -/
theorem executeOne_halts_cases {i : Instr} {s t : State} (h : executeOne i s = .halts t) :
    i.opcode = .hlt ∧ t = s := by
  cases i with
  | nop u => simp [executeOne, flowNop] at h
  | hlt u => exact ⟨rfl, by simpa [executeOne, flowHlt, eq_comm] using h⟩
  | movLitReg imm rd =>
    obtain ⟨r, -, h⟩ := withReg_eq_halts.1 h
    simp at h
  | movRegReg rs rd u =>
    obtain ⟨r, -, h⟩ := withReg_eq_halts.1 h
    obtain ⟨d, -, h⟩ := withReg_eq_halts.1 h
    simp at h
  | movRegMem rs addr =>
    obtain ⟨r, -, h⟩ := withReg_eq_halts.1 h
    obtain ⟨s', -, h⟩ := onBus_eq_halts.1 h
    simp at h
  | movMemReg addr rd =>
    obtain ⟨d, -, h⟩ := withReg_eq_halts.1 h
    obtain ⟨v, -, h⟩ := onBus_eq_halts.1 h
    simp at h
  | addRegReg ra rb u =>
    obtain ⟨a, -, h⟩ := withReg_eq_halts.1 h
    obtain ⟨b, -, h⟩ := withReg_eq_halts.1 h
    simp at h

/-- What a next state of `exec` can be: unchanged (`hlt`), or advanced after nothing, after one register written,
after one word stored, or after one word loaded into a register. -/
theorem exec_next_cases {i : Instr} {s t : State} (h : exec i s = .next t) :
    (i.opcode = .hlt ∧ t = s) ∨ t = s.advance ∨ (∃ r v, t = (s.setReg r v).advance) ∨
      (∃ a v s', s.memWrite a v = .ok s' ∧ t = s'.advance) ∨
      ∃ a r x, s.memRead a = .ok x ∧ t = (x.2.setReg r x.1).advance := by
  rw [exec_eq_finish] at h
  rcases Flow.finish_eq_next.1 h with ⟨s', hc, rfl⟩ | hh
  · rcases executeOne_continues_cases hc with rfl | ⟨r, v, rfl⟩ | ⟨a, v, hw⟩ | ⟨a, r, x, hx, rfl⟩
    · exact .inr (.inl rfl)
    · exact .inr (.inr (.inl ⟨r, v, rfl⟩))
    · exact .inr (.inr (.inr (.inl ⟨a, v, s', hw, rfl⟩)))
    · exact .inr (.inr (.inr (.inr ⟨a, r, x, hx, rfl⟩)))
  · exact .inl (executeOne_halts_cases hh)

/-- One step that answers a next state ran the instruction it fetched. -/
theorem step_eq_next {s t : State} : step s = .next t ↔ ∃ i, s.fetchDecode = .instr i ∧ exec i s = .next t := by
  unfold step
  cases s.fetchDecode <;> simp

end Sys2Proof.Machine
end

