-- ==== Sys2Proof/Laws/PerInstr.lean ====
section
/-! SUPPORT. The family of per-instruction statements: an instruction's word carries the opcode byte of its own row of the
table (30_encoding.md R69), and clearing its unused slots keeps that row. -/

namespace Sys2Proof.Laws

namespace EncodesOwnOpcode

/-- The record of an instruction begins with its opcode's byte, which the dispatch reads back as that opcode, with or
without its unused slots cleared. -/
def Statement (i : Instr) : Prop :=
  i.record.opcode = i.opcode.byte ∧ Opcode.ofByte? i.record.opcode = some i.opcode ∧
    i.clearUnused.record.opcode = i.record.opcode

theorem nop (unused : BitVec 24) : Statement (.nop unused) := ⟨rfl, rfl, rfl⟩
theorem hlt (unused : BitVec 24) : Statement (.hlt unused) := ⟨rfl, rfl, rfl⟩
theorem movLitReg (imm : Word) (rd : Byte) : Statement (.movLitReg imm rd) := ⟨rfl, rfl, rfl⟩
theorem movRegReg (rs rd unused : Byte) : Statement (.movRegReg rs rd unused) := ⟨rfl, rfl, rfl⟩
theorem movRegMem (rs : Byte) (addr : Word) : Statement (.movRegMem rs addr) := ⟨rfl, rfl, rfl⟩
theorem movMemReg (addr : Word) (rd : Byte) : Statement (.movMemReg addr rd) := ⟨rfl, rfl, rfl⟩
theorem addRegReg (ra rb unused : Byte) : Statement (.addRegReg ra rb unused) := ⟨rfl, rfl, rfl⟩

end EncodesOwnOpcode

end Sys2Proof.Laws
end

