-- ==== Sys2Proof/Tests/Slice0.lean ====
section
/-! SUPPORT. The model's own tests. Expected values come from spec/95_test_vectors.md (vector named in the comment) or from
the rule named, never from the model. The `witness_` theorems show states and operands that meet a statement's
hypotheses, at the boundaries of its clauses. -/

open Sys2Proof Sys2Proof.Machine

namespace Sys2Proof.Tests

/-! ### Well-formed instructions: an ill-formed term for each check -/

theorem test_wellFormed_accepts : (Instr.movLitReg 2 9).wellFormed = true := by decide
theorem test_wellFormed_refuses_register_16 : (Instr.movLitReg 2 16).wellFormed = false := by decide
theorem test_wellFormed_refuses_second_register : (Instr.addRegReg 15 255 0).wellFormed = false := by decide
theorem test_wellFormed_refuses_unused_slot : (Instr.movRegReg 1 0 0xFF).wellFormed = false := by decide
theorem test_wellFormed_refuses_unused_nop : (Instr.nop 0x000001).wellFormed = false := by decide

/-! ### Words written out from the spec's encodings -/

-- 95_test_vectors.md, P1 and V-ENGINE 13, 14
theorem test_decode_nop : decodeBytes [0x00, 0x00, 0x00, 0x00] = .instr (.nop 0) := by decide
theorem test_decode_nop_unused : decodeWord 0xFFFFFF00 = some (.nop 0xFFFFFF) := by decide
theorem test_decode_hlt : decodeBytes [0x01, 0x00, 0x00, 0x00] = .instr (.hlt 0) := by decide
theorem test_decode_hlt_unused : decodeWord 0x00030201 = some (.hlt 0x000302) := by decide
-- 95_test_vectors.md, L1.3: mov_lit_reg(-32734, r3)
theorem test_decode_movLitReg : decodeBytes [0x02, 0x22, 0x80, 0x0B] = .instr (.movLitReg 0x8022 11) := by decide
-- V-ENGINE 15: mov_reg_reg(ac, pc) with its unused slot set
theorem test_decode_movRegReg : decodeWord 0xFF000103 = some (.movRegReg 1 0 0xFF) := by decide
-- V-CODEC 5: mov_reg_mem(r0, 0x7FFF)
theorem test_decode_movRegMem : decodeBytes [0x04, 0x08, 0xFF, 0x7F] = .instr (.movRegMem 8 0x7FFF) := by decide
-- V-CODEC 6: mov_mem_reg(0x7FFF, r2)
theorem test_decode_movMemReg : decodeBytes [0x05, 0xFF, 0x7F, 0x0A] = .instr (.movMemReg 0x7FFF 10) := by decide
-- L1.1: add_reg_reg(r1, r2)
theorem test_decode_addRegReg : decodeBytes [0x06, 0x09, 0x0A, 0x00] = .instr (.addRegReg 9 10 0) := by decide
-- V-ENGINE 5: opcode byte 0x07; and fewer than four bytes
theorem test_decode_badOpcode : decodeBytes [0x07, 0x00, 0x00, 0x00] = .badOpcode 0x07 := by decide
theorem test_decode_truncated : decodeBytes [0x00, 0x00, 0x00] = .truncated := by decide
theorem test_decodeTableWord : decodeTableWord 32 0x09000202 = some (.movLitReg 2 9) := by decide

/-! ### The encoder (V-CODEC) -/

theorem test_encode_literal : (encodeCall .movLitReg (.wb 0xBEEF 10)).map encode = some 0x0ABEEF02 := by decide
theorem test_encode_minus_one : (encodeCall .movLitReg (.wb (-1) 15)).map encode = some 0x0FFFFF02 := by decide
theorem test_encode_least_literal : (encodeCall .movLitReg (.wb (-32768) 8)).map encode = some 0x08800002 := by decide
theorem test_encode_refuses_register_16 : encodeCall .movLitReg (.wb 2 16) = none := by decide
theorem test_encode_refuses_shape : encodeCall .movRegMem (.wb 2 1) = none := by decide
theorem test_encode_movRegMem : (encodeCall .movRegMem (.bw 8 0x7FFF)).map encode = some 0x7FFF0804 := by decide
-- 30_encoding.md R76
theorem test_text : (Instr.addRegReg 9 10 0).text = some "add_reg_reg(r1, r2)" := by decide
-- 90_conflicts.md C1
theorem test_literal_minus_32734 : bits16 (-32734) = 0x8022 := by decide
theorem test_signed16 : signed16 0x8022 = -32734 := by decide

/-! ### One step -/

/-- A state after reset with a program, the given registers written, and RAM cells listed. -/
def start (program : List Byte) (regs : List (Reg × Word)) (ram : Memory) : State :=
  regs.foldl (fun s x => s.setReg x.1 x.2) { State.reset with program := program, ram := ram }

/-- A program of one instruction's word and a `hlt`. -/
def oneWord (w : U32) : List Byte := (Record.ofU32 w).bytes ++ [0x01, 0x00, 0x00, 0x00]

/-- A register after one step that answers a next state. -/
def regAfter (s : State) (r : Reg) : Option Word :=
  match step s with
  | .next t => some (t.getReg r)
  | .fault _ => none
  | .refused _ => none

/-- The fault of one step. -/
def faultOf (s : State) : Option Fault :=
  match step s with
  | .next _ => none
  | .fault r => some r
  | .refused _ => none

-- V-CTRL 1
theorem test_nop : regAfter (start (oneWord 0x00000000) [] []) .pc = some 4 := by decide
-- V-CTRL 2, R84: halting is a next state that keeps pc, and the host sees Halt
theorem test_hlt : regAfter (start [0, 0, 0, 0, 1, 0, 0, 0] [(.pc, 4)] []) .pc = some 4 := by decide
theorem test_hlt_outcome : (start [0, 0, 0, 0, 1, 0, 0, 0] [(.pc, 4)] []).hostStep.outcome = .halted := by decide
-- V-MOV 1, 4
theorem test_movLitReg : regAfter (start (oneWord 0x0ABEEF02) [] []) .r2 = some 0xBEEF := by decide
theorem test_movLitReg_pc : regAfter (start (oneWord 0x00000802) [] []) .pc = some 0x000C := by decide
-- V-MOV 7: the offset of this very instruction; V-MOV 8
theorem test_movRegReg_from_pc :
    regAfter (start ([0, 0, 0, 0, 0, 0, 0, 0] ++ oneWord 0x00080003) [(.pc, 8)] []) .r0 = some 8 := by decide
theorem test_movRegReg_to_pc : regAfter (start (oneWord 0x00000903) [(.r1, 4)] []) .pc = some 8 := by decide
-- V-ALU 2 and 7
theorem test_addRegReg_wraps :
    regAfter (start (oneWord 0x00090806) [(.r0, 0xFFFF), (.r1, 2)] []) .ac = some 0x0001 := by decide
theorem test_addRegReg_ac_twice : regAfter (start (oneWord 0x00010106) [(.ac, 0x9000)] []) .ac = some 0x2000 := by decide
-- V-MOV 15: the read uses the old bank; V-MOV 16: the access across 0x7FFF
theorem test_movMemReg_old_bank :
    regAfter (start (oneWord 0x05900005) []
      [(bankCell 0 0x1000, 0x03), (bankCell 0 0x1001, 0x00), (bankCell 3 0x1000, 0x77)]) .mb = some 0x0003 := by decide
theorem test_movMemReg_across :
    regAfter (start (oneWord 0x0A7FFF05) [(.mb, 3)] [(lowCell 0x7FFF, 0xCD), (bankCell 3 0, 0x55)]) .r2 =
      some 0x55CD := by decide
-- V-MOV 13: mov_reg_mem(mb, 0x8000) with mb = 0x0102 stores into bank 2
theorem test_movRegMem_bank :
    ∃ t, exec (.movRegMem 5 0x8000) (start [] [(.mb, 0x0102)] []) = .next t ∧ t.bank 2 0 = 0x02 ∧ t.bank 2 1 = 0x01 := by
  refine ⟨_, rfl, ?_, ?_⟩
  · exact (Memory.read_write_other _ _ (by decide)).trans (Memory.read_write_same _ _ _)
  · exact Memory.read_write_same _ _ _
-- V-MOV 12: an odd address in the low half, bank 3 selected
theorem test_movRegMem_odd :
    ∃ t, exec (.movRegMem 8 0x0101) (start [] [(.mb, 3), (.r0, 0x1234)] []) = .next t ∧ t.low 0x0101 = 0x34 ∧
      t.low 0x0102 = 0x12 := by
  refine ⟨_, rfl, ?_, ?_⟩
  · exact (Memory.read_write_other _ _ (by decide)).trans (Memory.read_write_same _ _ _)
  · exact Memory.read_write_same _ _ _
-- V-MOV 11, 17
theorem test_movRegMem_busFault :
    faultOf (start (oneWord 0xFFFF0804) [(.r0, 0xA1B2)] []) = some (.busFault (.movRegMem 8 0xFFFF) 0 0xFFFF) := by decide
theorem test_movMemReg_busFault :
    faultOf (start (oneWord 0x0BFFFF05) [(.r3, 0x4444)] []) = some (.busFault (.movMemReg 0xFFFF 11) 0 0xFFFF) := by decide
-- V-ENGINE 2, 3, 6, 8, 12
theorem test_fetch_misaligned : faultOf (start [0, 0, 0, 0, 1, 0, 0, 0] [(.pc, 2)] []) = some (.fetchFault 2) := by decide
theorem test_fetch_past_end : faultOf (start [0, 0, 0, 0, 1, 0, 0, 0] [(.pc, 8)] []) = some (.fetchFault 8) := by decide
theorem test_badOpcode : faultOf (start (oneWord 0xFFFFFFFF) [] []) = some (.badOpcode 0xFFFFFFFF 0) := by decide
theorem test_badRegister : faultOf (start (oneWord 0x00100103) [] []) = some (.badRegister 0x00100103 0) := by decide
theorem test_badRegister_before_busFault :
    faultOf (start (oneWord 0x10FFFF05) [] []) = some (.badRegister 0x10FFFF05 0) := by decide
-- V-RAM 3: 5 mod 4 = 1
theorem test_bank_5_is_bank_1 : ramCell 5 0x8000 = bankCell 1 0 := by decide
-- log entry 6: the word that withFetchWord places is what the next step runs
theorem test_withFetchWord_runs : regAfter (State.reset.withFetchWord 32 0x09000202) .r1 = some 2 := by decide

/-! ### The router and the host port -/

/-- The device of L1.4 and V-BUS 4 to 8, alone on the bus. -/
def testDevice (remap : Bool) : Device := ⟨"TEST", .other, 0x1000, 0x8000, remap⟩

-- V-BUS 4, 5, 6, 7, 8
theorem test_router_remap : (findDevice [testDevice true] 0x1020).map (fun d => d.localAddr 0x1020) = some 0x0020 := by decide
theorem test_router_no_remap : (findDevice [testDevice false] 0x1020).map (fun d => d.localAddr 0x1020) = some 0x1020 := by
  decide
theorem test_router_unclaimed : findDevice [testDevice false] 0x0FFF = none := by decide
theorem test_router_second_byte_outside : check16 [testDevice false] 0x8000 = none := by decide
theorem test_router_list_refused : busWellFormed [testDevice false] = false := by decide
-- 20_memory.md R53, R34: an added device at 0x1000 that remaps receives the byte at 0x1020 first, then the one after it
theorem test_added_device_order :
    (match exec (.movMemReg 0x1020 9) { State.reset with devices :=
        [⟨"ram", .bankedRam, 0x8000, 0xFFFF, false⟩, ⟨"A", .other, 0x1000, 0x2000, true⟩] } with
      | .next t => t.accesses.map DeviceAccess.access
      | .fault _ => []
      | .refused _ => []) = [.read 0x0020, .read 0x0021] := by decide
-- load_program: V-ENGINE 17 to 22
theorem test_load_refused :
    [([] : List Byte), [1, 0, 0], [0, 0, 0, 0], [1, 0, 0, 0, 0, 0, 0, 0]].map programAccepted = [false, false, false, false] := by
  decide
theorem test_load_accepted : [([1, 0, 0, 0] : List Byte), [0, 0, 0, 0, 1, 0xFF, 0xFF, 0xFF]].map programAccepted = [true, true] := by
  decide
-- L1.7: the 48-byte ROM file (versions 1 and 2 chosen) gives region 0's 24 bytes back, and no region 1
def romFile : List Byte :=
  [0x7F, 0x72, 0x31, 0x36, 1, 2, 0x01, 0x00, 0, 0, 0, 0, 0x18, 0, 0, 0, 0x18, 0, 0x00, 0x7F, 0xFF, 0xFF, 0, 0] ++
    [0, 0, 0, 0, 2, 2, 0, 9, 2, 2, 0, 0x0A, 2, 0x22, 0x80, 0x0B, 6, 9, 0x0A, 0, 1, 0, 0, 0]
theorem test_rom_region : (Rom.load romFile).bind (fun rom => rom.getRegion 0) = .ok (romFile.drop 24) := by decide
theorem test_rom_unknown : (Rom.load romFile).bind (fun rom => rom.getRegion 1) = .error .unknownRegion := by decide
theorem test_rom_written : romImage 1 2 [⟨0, 24, 24, 0x7F00, 0xFFFF, 0⟩] (romFile.drop 24) = romFile := by decide

/-! ### Witnesses: the hypotheses of the statements can be met -/

/-- An added device that remaps. -/
def addedDevice : Device := ⟨"added", .other, 0x1000, 0x2000, true⟩

/-- A well-formed list with an added device below the split, which the RAM device's range leaves out. -/
def twoDevices : List Device := [⟨"banked_ram", .bankedRam, 0x8000, 0xFFFF, false⟩, addedDevice]

/-- A state at a `nop` that a `hlt` follows. -/
def atNop : State := start [0, 0, 0, 0, 1, 0, 0, 0] [] []
/-- A state at a `hlt`. -/
def atHlt : State := start [1, 0, 0, 0] [] []

theorem atNop_inv : Inv atNop := ⟨Memory.wf_nil, by decide, by decide, rfl⟩
theorem atNop_step : step atNop = .next atNop.advance := rfl

theorem witness_reachesRam_default : ReachesRam atNop 0x7FFF bankedRamDevice := ⟨by decide, by decide, rfl⟩
theorem witness_reachesRam_last : ReachesRam atNop 0xFFFE bankedRamDevice := ⟨by decide, by decide, rfl⟩
theorem witness_reachesRam_twoDevices :
    ReachesRam { atNop with devices := twoDevices } 0x8000 ⟨"banked_ram", .bankedRam, 0x8000, 0xFFFF, false⟩ :=
  ⟨by decide, by decide, rfl⟩

theorem witness_LiteralPatternIsTwosComplement :
    (0 : Int) ≤ 65535 ∧ (-32768 : Int) ≤ -1 ∧ (-1 : Int) < 0 ∧ (-32768 : Int) ≤ 32767 := by decide
theorem witness_EncoderRefusesBadCalls :
    CallForm.shape (.wb 2 1) ≠ Opcode.shape .movRegMem ∧ encodeCall .movLitReg (.wb 65535 15) = some (.movLitReg 0xFFFF 15) := by
  decide
theorem witness_UnusedSlotsAreIgnored : (Instr.movRegReg 1 0 0xFF).regsOk = true := by decide
theorem witness_NewSessionHasNoRegisterValues : Session.create twoDevices = some (.fresh [] [] twoDevices) := by decide
theorem witness_RouterTakesFastPathThenFirstMatch :
    0x8000 < (0x8001 : Word).toNat ∧ (0x8000 : Word).toNat ≤ 0x8000 ∧
      findDevice twoDevices 0x2000 = some addedDevice := by decide
theorem witness_RemapSubtractsTheRangeStart :
    (testDevice true).claims 0x1000 = true ∧ (testDevice false).claims 0x8000 = true ∧ (testDevice true).remap = true ∧
      (testDevice false).remap = false := by decide
theorem witness_ByteAccessSelectsLowOrBank :
    (busWellFormed atNop.devices = true ∧ findDevice atNop.devices 0x7FFF = atNop.devices.head? ∧
      (0x7FFF : Word).toNat ≤ 0x7FFF ∧ 0x8000 ≤ (0x8000 : Word).toNat ∧
      findDevice atNop.devices 0xFFFF = atNop.devices.head?) ∧
      busWellFormed twoDevices = true ∧ findDevice twoDevices 0x0FFF = none ∧ findDevice twoDevices 0x2001 = none ∧
      findDevice twoDevices 0x8000 = twoDevices.head? ∧ findDevice twoDevices 0x1000 = some addedDevice ∧
      findDevice twoDevices 0x2000 = some addedDevice ∧ addedDevice.kind = .other := by decide
theorem witness_WordWriteIsLittleEndian : ReachesRam atNop 0x0000 bankedRamDevice := ⟨by decide, by decide, rfl⟩
theorem witness_WordWriteThenByteReads : atNop.devices = defaultDevices ∧ (0xFFFE : Word) ≠ 0xFFFF := by decide
theorem witness_UnselectedBanksStayUnchanged :
    step atNop = .next atNop.advance ∧ 3 < 4 ∧ 0x7FFF < 0x8000 ∧ 3 ≠ (atNop.getReg .mb).toNat % 4 :=
  ⟨rfl, by decide, by decide, by decide⟩
theorem witness_UpperBankBitsHaveNoEffect : (0x0102 : Word).toNat % 4 = (0x0002 : Word).toNat % 4 := by decide
theorem witness_BankSwitchTakesEffectAtOnce :
    ReachesRam (start [] [] [(0, 0x03), (1, 0x00)]) 0x8000 bankedRamDevice ∧ 0x8000 ≤ (0x8000 : Word).toNat ∧
      (Instr.movLitReg 3 5 = .movLitReg 3 Reg.mb.byte ∧ Instr.movRegReg 8 5 0 = .movRegReg (Reg.byte .r0) Reg.mb.byte 0) ∧
      Instr.movMemReg 0 5 = .movMemReg 0 Reg.mb.byte ∧
      (start [] [] [(0, 0x03), (1, 0x00)]).memRead (effectiveAddress 0) = .ok (3, start [] [] [(0, 0x03), (1, 0x00)]) :=
  ⟨⟨by decide, by decide, rfl⟩, by decide, by decide, by decide, by decide⟩
theorem witness_BankSwitchTakesEffectAtOnce_last :
    ReachesRam atNop 0xFFFE bankedRamDevice ∧ 0x8000 ≤ (0xFFFE : Word).toNat := ⟨⟨by decide, by decide, rfl⟩, by decide⟩
theorem witness_MovRegMemStoresTheWord : ReachesRam atNop (effectiveAddress 0x7FFF) bankedRamDevice :=
  ⟨by decide, by decide, rfl⟩
theorem witness_StoreGoesToLowOrSelectedBank :
    atNop.devices = defaultDevices ∧ (0x7FFE : Word) ≠ 0xFFFF ∧ (0x7FFE : Word).toNat < 0x7FFF ∧ (0x7FFF : Word) ≠ 0xFFFF ∧
      (0x7FFF : Word).toNat = 0x7FFF ∧ (0x8000 : Word) ≠ 0xFFFF ∧ 0x8000 ≤ (0x8000 : Word).toNat ∧
      (0xFFFE : Word) ≠ 0xFFFF ∧ 0x8000 ≤ (0xFFFE : Word).toNat := by decide
theorem witness_MovMemRegLoadsTheWord :
    ReachesRam (start [] [] [(0, 0x34), (1, 0x12)]) (effectiveAddress 0) bankedRamDevice ∧
      (0x1234 : Word) = word (Memory.read [(0, 0x34), (1, 0x12)] (ramCell 0 0))
        (Memory.read [(0, 0x34), (1, 0x12)] (ramCell 0 1)) := ⟨⟨by decide, by decide, rfl⟩, by decide⟩
theorem witness_LoadReadsLowOrSelectedBank :
    atNop.devices = defaultDevices ∧ (0x7FFE : Word) ≠ 0xFFFF ∧ (0x7FFE : Word).toNat < 0x7FFF ∧
      (0x7FFF : Word).toNat = 0x7FFF ∧ 0x8000 ≤ (0x8000 : Word).toNat ∧ (0xFFFE : Word) ≠ 0xFFFF ∧ Reg.r7 ≠ .pc := by decide
theorem witness_StoreThenLoadReturnsTheValue : ReachesRam atNop 0x8000 bankedRamDevice :=
  ⟨by decide, by decide, rfl⟩
theorem witness_BadRegisterFieldFaults :
    (∃ b ∈ (Instr.movLitReg 2 16).regFields, 16 ≤ b.toNat) ∧ (∃ b ∈ (Instr.movRegReg 0 255 0).regFields, 16 ≤ b.toNat) ∧
      (∃ b ∈ (Instr.movRegMem 16 0).regFields, 16 ≤ b.toNat) ∧ (∃ b ∈ (Instr.movMemReg 0xFFFF 32).regFields, 16 ≤ b.toNat) ∧
      ∃ b ∈ (Instr.addRegReg 16 0 0).regFields, 16 ≤ b.toNat := by decide
theorem witness_BusFaultEndsTheMemoryInstruction :
    (busWellFormed defaultDevices = true ∧ check16 defaultDevices 0xFFFF = none) ∧
      (busWellFormed twoDevices = true ∧ check16 twoDevices 0x0FFF = none ∧ check16 twoDevices 0x2000 = none) := by decide
theorem witness_DeviceListIsRefusedUnlessWellFormed :
    busWellFormed ([] : List Device) = false ∧ busWellFormed twoDevices = true ∧
      busWellFormed [bankedRamDevice, bankedRamDevice] = false := by decide
theorem witness_AddedDeviceGetsBothBytesInOrder :
    ReachesAdded { atNop with devices := twoDevices } (effectiveAddress 0x1000) addedDevice ∧
      ReachesAdded { atNop with devices := twoDevices } (effectiveAddress 0x1FFF) addedDevice :=
  ⟨⟨by decide, by decide, rfl⟩, by decide, by decide, rfl⟩
theorem witness_FetchReadsTheProgramBuffer :
    (2 : Word).toNat % 4 ≠ 0 ∧ atNop.program.length / 4 ≤ (8 : Word).toNat / 4 ∧
      State.reset.program.length / 4 ≤ (State.reset.getReg .pc).toNat / 4 ∧
      (start atNop.program [(.pc, 4)] []).program.drop 4 = 1 :: 0 :: 0 :: 0 :: [] := by decide
theorem witness_BadOpcodeFaults :
    (start (oneWord 7) [] []).fetch = some 7 ∧ 7 ≤ (7 : U32).toNat % 256 ∧
      (start (oneWord 0xFFFFFFFF) [] []).fetch = some 0xFFFFFFFF := by decide
theorem witness_OutcomesHaveTheirCauses :
    atHlt.hostStep.outcome = .halted ∧ State.reset.hostStep.outcome = .faulted (.fetchFault 0) ∧
      (start (oneWord 7) [] []).hostStep.outcome = .faulted (.badOpcode 7 0) ∧
      (start (oneWord 0x10000202) [] []).hostStep.outcome = .faulted (.badRegister 0x10000202 0) ∧
      (start (oneWord 0x0BFFFF05) [] []).hostStep.outcome = .faulted (.busFault (.movMemReg 0xFFFF 11) 0 0xFFFF) := by decide
theorem witness_FaultChangesNoState : State.reset.hostStep.outcome = .faulted (.fetchFault 0) := by decide
theorem witness_HaltIsIdempotent : atHlt.fetch = some 1 ∧ decodeWord 1 = some (.hlt 0) := by decide
theorem witness_StepRunsTheInstructionAtPc :
    (atNop.getReg .pc).toNat % 4 = 0 ∧ atNop.program.drop (atNop.getReg .pc).toNat = encodeBytes (.nop 0) ++ [1, 0, 0, 0] := by
  decide
theorem witness_PcAdvancesByFourUnlessWritten :
    exec (.nop 0) atNop = .next atNop.advance ∧ isHlt (.nop 0) = false ∧ writesPc (.nop 0) = false ∧
      exec (.hlt 0) atNop = .next atNop ∧ isHlt (.hlt 0) = true := ⟨rfl, by decide, by decide, rfl, by decide⟩
theorem witness_StepKeepsProgramDevicesAndStatus : step atNop = .next atNop.advance := rfl
theorem witness_ExecuteIsRepeatedStep : Executes atHlt atHlt.hostStep ∧ atHlt.executeFor 1 = some atHlt.hostStep :=
  ⟨.stops (by decide), by decide⟩
theorem witness_ExecuteIsRepeatedStep_goes_on : Executes atNop atNop.hostStep.after.hostStep :=
  .goesOn (by decide) (.stops (by decide))
theorem witness_LoadProgramChecksAndInstalls :
    (([1, 0, 0, 0] : List Byte).length ≠ 0 ∧ ([1, 0, 0, 0] : List Byte).length % 4 = 0 ∧
      ([1, 0, 0, 0] : List Byte).length ≤ 65536 ∧ ([1, 0, 0, 0] : List Byte)[4 - 4]? = some 0x01) ∧
      ¬ (([0, 0, 0, 0] : List Byte)[4 - 4]? = some 0x01) := by decide
theorem witness_LoadedProgramEndsInHalt :
    State.reset.loadProgram 0x7F00 [1, 0, 0, 0] = .ok atHlt ∧ (State.reset.getReg .pc).toNat = 4 - 4 ∧
      (State.reset.getReg .pc).toNat % 4 = 0 ∧ (State.reset.getReg .pc).toNat < 4 := ⟨rfl, by decide, by decide, by decide⟩
/-- The ROM of L1.7 with a second entry of the same id, which is never reached. -/
def romTwice : Rom :=
  ⟨[1, 0, 0, 0], 0, 0, [⟨7, 0, 4, 0, 0xFFFF, 0⟩, ⟨7, 2, 4, 0, 0xFFFF, 0⟩, ⟨8, 2, 4, 0, 0xFFFF, 0⟩]⟩
theorem witness_GetRegionTakesTheFirstMatch :
    (∀ e ∈ romTwice.entries, e.id ≠ 9) ∧
      (romTwice.entries = [] ++ ⟨7, 0, 4, 0, 0xFFFF, 0⟩ :: romTwice.entries.tail ∧ romTwice.file = [] ++ [1, 0, 0, 0] ++ []) ∧
      (∀ x ∈ romTwice.entries.take 2, x.id ≠ 8) ∧ romTwice.file.length < (2 : U32).toNat + (4 : Word).toNat := by decide
theorem witness_RomImageLoadsBack : ([⟨0, 24, 24, 0x7F00, 0xFFFF, 0⟩] : List RegionEntry).length ≤ 65535 := by decide
theorem witness_InvariantKeptByEveryStep : Inv atNop ∧ step atNop = .next atNop.advance := ⟨atNop_inv, rfl⟩
theorem witness_InvariantKeptByTheHost :
    Inv atNop ∧ atNop.loadProgram 0 [1, 0, 0, 0] = .ok { atNop with program := [1, 0, 0, 0] } ∧
      (∃ b t, atNop.read8 0 = .ok (b, t)) ∧ (∃ v t, atNop.memRead 0 = .ok (v, t)) ∧ (∃ t, atNop.write8 0xFFFF 1 = .ok t) ∧
      ∃ t, atNop.memWrite 0xFFFE 1 = .ok t := ⟨atNop_inv, rfl, ⟨_, _, rfl⟩, ⟨_, _, rfl⟩, ⟨_, rfl⟩, ⟨_, rfl⟩⟩
theorem witness_WellFormedBusRunsAreNeverRefused :
    busWellFormed atNop.devices = true ∧ busWellFormed { atNop with devices := twoDevices }.devices = true := by decide
theorem witness_UnselectedBanksAreUnobservable :
    1 < 4 ∧ 0 < 0x8000 ∧ 1 ≠ (atNop.getReg .mb).toNat % 4 ∧ step atNop = .next atNop.advance :=
  ⟨by decide, by decide, by decide, rfl⟩

end Sys2Proof.Tests
end

section
/-! SUPPORT and proofs of the scope statements (00_scope.md R9, R10): the codec's byte arithmetic is R10's mask, shift and
or, and a literal's pattern is its residue modulo 65536. -/

namespace Sys2Proof

/-- The remainder of `lo` is the mask of R10. -/
theorem lo_toNat_eq_and (v : Word) : (lo v).toNat = v.toNat &&& 0xFF := by
  rw [lo_toNat]
  exact (Nat.and_two_pow_sub_one_eq_mod v.toNat 8).symm

/-- The quotient of `hi` is the shift of R10; its mask takes nothing away, for a word has no bit above 15. -/
theorem hi_toNat_eq_shiftRight_and (v : Word) : (hi v).toNat = (v.toNat >>> 8) &&& 0xFF := by
  have hq : v.toNat / 2 ^ 8 < 2 ^ 8 := Nat.div_lt_of_lt_mul v.isLt
  rw [hi_toNat, Nat.shiftRight_eq_div_pow]
  exact (Nat.and_two_pow_sub_one_of_lt_two_pow hq).symm

/-- The sum of `word` is the or of R10: the shifted high byte has no bit where the low byte has one. -/
theorem word_toNat_eq_or_shiftLeft (l h : Byte) : (word l h).toNat = l.toNat ||| (h.toNat <<< 8) := by
  calc (word l h).toNat
      _ = h.toNat <<< 8 + l.toNat := by rw [word_toNat, Nat.shiftLeft_eq]; omega
      _ = h.toNat <<< 8 ||| l.toNat := Nat.shiftLeft_add_eq_or_of_lt l.isLt h.toNat
      _ = l.toNat ||| (h.toNat <<< 8) := Nat.or_comm _ _

/-- The pattern of every integer is its residue modulo 65536 (00_scope.md R9). -/
theorem bits16_toNat (n : Int) : ((bits16 n).toNat : Int) = n % 65536 := by
  rw [bits16, BitVec.toNat_ofInt]
  exact Int.toNat_of_nonneg (Int.emod_nonneg n (by decide))

/-- Below 0x8000 the signed reading is the word itself. -/
theorem signed16_of_lt {v : Word} (h : v.toNat < 0x8000) : signed16 v = v.toNat := if_pos h

/-- From 0x8000 up the signed reading is 65536 less than the word. -/
theorem signed16_of_le {v : Word} (h : 0x8000 ≤ v.toNat) : signed16 v = (v.toNat : Int) - 65536 :=
  if_neg (Nat.not_lt.2 h)

theorem bits16_toNat_of_nonneg {n : Int} (h0 : 0 ≤ n) (h1 : n ≤ 65535) : ((bits16 n).toNat : Int) = n := by
  rw [bits16_toNat]
  exact Int.emod_eq_of_lt h0 (by omega)

theorem bits16_toNat_of_neg {n : Int} (h0 : -32768 ≤ n) (h1 : n < 0) : ((bits16 n).toNat : Int) = 65536 + n := by
  rw [bits16_toNat]
  omega

/-- The signed reading undoes the pattern on the signed range, by the sign of the literal. -/
theorem signed16_bits16 {n : Int} (h0 : -32768 ≤ n) (h1 : n ≤ 32767) : signed16 (bits16 n) = n := by
  rcases lt_or_ge n 0 with hneg | hnonneg
  · have hp := bits16_toNat_of_neg h0 hneg
    rw [signed16_of_le (by omega), hp]
    omega
  · have hp := bits16_toNat_of_nonneg hnonneg (by omega)
    rw [signed16_of_lt (by omega), hp]

/-- Settles O1: the arithmetic of the codec is R10's bit operations, and the round trips are the codec's own lemmas. -/
theorem wordSplitsIntoLowAndHighByte : Obligations.WordSplitsIntoLowAndHighByte :=
  ⟨fun v => ⟨lo_toNat_eq_and v, hi_toNat_eq_shiftRight_and v, word_lo_hi v⟩,
    fun l h => ⟨word_toNat_eq_or_shiftLeft l h, lo_word l h, hi_word l h⟩⟩

/-- Settles O2, from the residue modulo 65536; the last clause evaluates C1's literal. -/
theorem literalPatternIsTwosComplement : Obligations.LiteralPatternIsTwosComplement :=
  ⟨fun _ => bits16_toNat_of_nonneg, fun _ => bits16_toNat_of_neg, fun _ => signed16_bits16, by decide⟩

end Sys2Proof
end

section
/-! SUPPORT and proofs of the state statements (10_state.md): what a register operand names, what a register write and
`reset()` change, the invariant of every step, and three comparisons of two runs (another status stub, other upper bits of
`mb`, another byte in an unselected bank), all by one simulation argument over the state's operations. -/

namespace Sys2Proof

theorem Reg.byte_toNat (r : Reg) : r.byte.toNat = r.number := by cases r <;> rfl

/-- A byte is a register's operand byte exactly when its value is that register's number. -/
theorem Reg.eq_byte_iff (b : Byte) (r : Reg) : b = r.byte ↔ b.toNat = r.number := by
  rw [← Reg.byte_toNat, BitVec.toNat_inj]

/-- Settles O10, by the codec's lemmas on operand bytes. -/
theorem operandByteNamesItsRegister : Obligations.OperandByteNamesItsRegister :=
  ⟨by decide, fun b r => (Reg.ofByte?_eq_some b r).trans (Reg.eq_byte_iff b r), fun b => Reg.ofByte?_eq_none b⟩

end Sys2Proof

namespace Sys2Proof.Machine

/-! ### Registers, `reset()` and a new session -/

/-- Settles O11, by the register file's read-after-write laws; a register write touches the register file alone. -/
theorem registerReadsTheLastWrite : Obligations.RegisterReadsTheLastWrite := fun s r v =>
  ⟨State.getReg_setReg_same s r v, fun _ hq => State.getReg_setReg_other s v (List.ne_of_not_mem_cons hq),
    fun _ _ => rfl, ⟨rfl, rfl, rfl⟩, rfl⟩

@[simp] theorem State.hostReset_getReg (s : State) (r : Reg) : s.hostReset.getReg r = 0 := RegFile.get_zero r

/-- Settles O12: `reset()` writes two fields of the state, with constants. -/
theorem resetZeroesRegistersOnly : Obligations.ResetZeroesRegistersOnly := fun s =>
  ⟨s.hostReset_getReg, rfl, rfl, rfl, rfl, rfl, rfl⟩

/-- A session is created over a well-formed device list alone, and holds no registers yet. -/
theorem Session.create_eq_some {devices : List Device} {x : Session} :
    Session.create devices = some x ↔ busWellFormed devices = true ∧ x = .fresh [] [] devices := by
  unfold Session.create
  cases busWellFormed devices <;> simp [eq_comm]

@[simp] theorem Session.get_live (s : State) (r : Reg) : (Session.live s).get r = some (s.getReg r) := rfl

@[simp] theorem Session.get_fresh (program : List Byte) (ram : Memory) (devices : List Device) (r : Reg) :
    (Session.fresh program ram devices).get r = none := rfl

@[simp] theorem Session.step_fresh (program : List Byte) (ram : Memory) (devices : List Device) :
    (Session.fresh program ram devices).step = none := rfl

theorem Session.get_reset_fresh (program : List Byte) (ram : Memory) (devices : List Device) (r : Reg) :
    (Session.fresh program ram devices).reset.get r = some 0 :=
  congrArg some (RegFile.get_zero r)

/-- Settles O13: every created session is a fresh one, which holds no registers until its first `reset()`. -/
theorem newSessionHasNoRegisterValues : Obligations.NewSessionHasNoRegisterValues := by
  refine ⟨Session.create_eq_some.2 ⟨defaultDevices_wellFormed, rfl⟩, fun x devices hx => ?_, rfl, RegFile.get_zero, rfl,
    rfl⟩
  obtain ⟨-, rfl⟩ := Session.create_eq_some.1 hx
  exact ⟨Session.get_fresh [] [] devices, Session.step_fresh [] [] devices, Session.get_reset_fresh [] [] devices⟩

/-! ### The invariant -/

/-- Settles O55. -/
theorem invariantHoldsAtReset : Obligations.InvariantHoldsAtReset :=
  ⟨Memory.wf_nil, defaultDevices_wellFormed, rfl, rfl⟩

/-- The invariant speaks of the RAM and of the fixed state: where the latter is the same, canonical RAM is left to show. -/
theorem Inv.of_fixedSame {s t : State} (h : Inv s) (hram : t.ram.wf) (hf : FixedSame s t) : Inv t := by
  obtain ⟨hstatus, hprogram, hdevices⟩ := hf
  exact ⟨hram, hdevices ▸ h.devices, hprogram ▸ h.program, hstatus ▸ h.status⟩

theorem Inv.setReg {s : State} (h : Inv s) (r : Reg) (v : Word) : Inv (s.setReg r v) :=
  h.of_fixedSame h.ram ⟨rfl, rfl, rfl⟩

theorem Inv.advance {s : State} (h : Inv s) : Inv s.advance := h.setReg .pc _

/-- A device's byte write keeps the RAM canonical: the RAM device writes a cell of its own, another device none. -/
theorem State.deviceWrite8_ram_wf {s : State} (h : s.ram.wf) (d : Device) (l : Word) (b : Byte) :
    (s.deviceWrite8 d l b).ram.wf := by
  cases hk : d.kind with
  | bankedRam =>
    rw [State.deviceWrite8_ram hk, State.ramWrite8_ram]
    exact Memory.write_wf h (ramCell_lt _ l) b
  | other =>
    rw [State.deviceWrite8_added hk, State.noteAccess_ram]
    exact h

theorem Inv.memRead {s : State} (h : Inv s) {a : Word} {x : Word × State} (hx : s.memRead a = .ok x) : Inv x.2 := by
  obtain ⟨d, -, -, rfl⟩ := State.memRead_eq_ok.1 hx
  obtain ⟨-, hram, hf⟩ := s.deviceRead16_frame d (d.localAddr a)
  exact h.of_fixedSame (hram ▸ h.ram) hf

theorem Inv.memWrite {s t : State} (h : Inv s) {a v : Word} (ht : s.memWrite a v = .ok t) : Inv t := by
  obtain ⟨d, -, -, rfl⟩ := State.memWrite_eq_ok.1 ht
  obtain ⟨-, hf⟩ := s.deviceWrite16_frame d (d.localAddr a) v
  exact h.of_fixedSame (State.deviceWrite8_ram_wf (State.deviceWrite8_ram_wf h.ram d _ _) d _ _) hf

/-- Every instruction keeps the invariant, by what its next state can be. -/
theorem Inv.exec {s t : State} (h : Inv s) {i : Instr} (ht : exec i s = .next t) : Inv t := by
  rcases exec_next_cases ht with ⟨-, rfl⟩ | rfl | ⟨r, v, rfl⟩ | ⟨a, v, u, hu, rfl⟩ | ⟨a, r, x, hx, rfl⟩
  · exact h
  · exact h.advance
  · exact (h.setReg r v).advance
  · exact (h.memWrite hu).advance
  · exact ((h.memRead hx).setReg r x.1).advance

/-- Settles O56: a step with a next state ran one instruction, which keeps the invariant. -/
theorem invariantKeptByEveryStep : Obligations.InvariantKeptByEveryStep := fun _ _ h hs =>
  let ⟨_, _, ht⟩ := step_eq_next.1 hs
  h.exec ht

/-! ### Two runs side by side: the bus -/

/-- Two bus accesses that answer alike: the same fault, the same refusal, or values that `Q` relates. -/
inductive BusResult.Sim {α : Type} (Q : α → α → Prop) : BusResult α → BusResult α → Prop where
  | ok {a a' : α} (h : Q a a') : BusResult.Sim Q (.ok a) (.ok a')
  | busFault (addr : Word) : BusResult.Sim Q (.busFault addr) (.busFault addr)
  | refused (r : Refusal) : BusResult.Sim Q (.refused r) (.refused r)

/-- Where related values are those of a function `g`, the second access is the first one changed by `g`. -/
theorem BusResult.Sim.eq_map {α : Type} {Q : α → α → Prop} {x x' : BusResult α} {g : α → α} (h : BusResult.Sim Q x x')
    (hg : ∀ a a', Q a a' → a' = g a) : x' = x.map g := by
  cases h with
  | ok h => rw [hg _ _ h]; rfl
  | busFault addr => rfl
  | refused r => rfl

/-- Two reads that answer the same value and leave related states. -/
def SameAnswer {α : Type} (R : State → State → Prop) (x x' : α × State) : Prop := x'.1 = x.1 ∧ R x.2 x'.2

/-- `R` relates states the bus cannot tell apart: the same device list and requests, the same bytes at every RAM address,
and each effect a device can have keeps the relation. -/
structure BusSim (R : State → State → Prop) : Prop where
  devices : ∀ {s s'}, R s s' → s'.devices = s.devices
  accesses : ∀ {s s'}, R s s' → s'.accesses = s.accesses
  ramRead8 : ∀ {s s'}, R s s' → ∀ a, s'.ramRead8 a = s.ramRead8 a
  ramWrite8 : ∀ {s s'}, R s s' → ∀ a b, R (s.ramWrite8 a b) (s'.ramWrite8 a b)
  noteAccess : ∀ {s s'}, R s s' → ∀ d x, R (s.noteAccess d x) (s'.noteAccess d x)

theorem State.accessesOf_congr {s s' : State} (h : s'.accesses = s.accesses) (d : Device) :
    s'.accessesOf d = s.accessesOf d := by
  rw [State.accessesOf, h, State.accessesOf]

/-- The router looks at the device list alone. -/
theorem State.routed_congr {s s' : State} (h : s'.devices = s.devices) (a : Word) (found : Option Device) :
    s'.routed a found = s.routed a found := by
  unfold State.routed
  rw [h]

/-- Two accesses over the same device list are routed alike, so they answer alike where every device does. -/
theorem BusResult.Sim.of_routed {α : Type} {Q : α → α → Prop} {s s' : State} {f f' : Device → α}
    (hd : s'.devices = s.devices) (hf : ∀ d, Q (f d) (f' d)) (a : Word) (find : List Device → Option Device) :
    BusResult.Sim Q ((s.routed a (find s.devices)).map f) ((s'.routed a (find s'.devices)).map f') := by
  rw [hd, State.routed_congr hd]
  cases s.routed a (find s.devices) with
  | ok d => exact .ok (hf d)
  | busFault addr => exact .busFault addr
  | refused r => exact .refused r

namespace BusSim

variable {R : State → State → Prop} {s s' : State}

theorem deviceRead8 (hR : BusSim R) (h : R s s') (d : Device) (l : Word) :
    SameAnswer R (s.deviceRead8 d l) (s'.deviceRead8 d l) := by
  cases hk : d.kind with
  | bankedRam =>
    rw [State.deviceRead8_ram hk, State.deviceRead8_ram hk]
    exact ⟨hR.ramRead8 h l, h⟩
  | other =>
    rw [State.deviceRead8_added hk, State.deviceRead8_added hk, State.accessesOf_congr (hR.accesses h)]
    exact ⟨rfl, hR.noteAccess h d _⟩

theorem deviceWrite8 (hR : BusSim R) (h : R s s') (d : Device) (l : Word) (b : Byte) :
    R (s.deviceWrite8 d l b) (s'.deviceWrite8 d l b) := by
  cases hk : d.kind with
  | bankedRam =>
    rw [State.deviceWrite8_ram hk, State.deviceWrite8_ram hk]
    exact hR.ramWrite8 h l b
  | other =>
    rw [State.deviceWrite8_added hk, State.deviceWrite8_added hk]
    exact hR.noteAccess h d _

theorem deviceRead16 (hR : BusSim R) (h : R s s') (d : Device) (l : Word) :
    SameAnswer R (s.deviceRead16 d l) (s'.deviceRead16 d l) := by
  obtain ⟨hlo, hmid⟩ := hR.deviceRead8 h d l
  obtain ⟨hhi, hend⟩ := hR.deviceRead8 hmid d (l + 1)
  exact ⟨congrArg₂ word hlo hhi, hend⟩

theorem deviceWrite16 (hR : BusSim R) (h : R s s') (d : Device) (l v : Word) :
    R (s.deviceWrite16 d l v) (s'.deviceWrite16 d l v) :=
  hR.deviceWrite8 (hR.deviceWrite8 h d l (lo v)) d (l + 1) (hi v)

theorem read8 (hR : BusSim R) (h : R s s') (a : Word) : BusResult.Sim (SameAnswer R) (s.read8 a) (s'.read8 a) :=
  .of_routed (hR.devices h) (fun d => hR.deviceRead8 h d _) a fun ds => findDevice ds a

theorem write8 (hR : BusSim R) (h : R s s') (a : Word) (b : Byte) : BusResult.Sim R (s.write8 a b) (s'.write8 a b) :=
  .of_routed (hR.devices h) (fun d => hR.deviceWrite8 h d _ b) a fun ds => findDevice ds a

theorem memRead (hR : BusSim R) (h : R s s') (a : Word) : BusResult.Sim (SameAnswer R) (s.memRead a) (s'.memRead a) :=
  .of_routed (hR.devices h) (fun d => hR.deviceRead16 h d _) a fun ds => check16 ds a

theorem memWrite (hR : BusSim R) (h : R s s') (a v : Word) : BusResult.Sim R (s.memWrite a v) (s'.memWrite a v) :=
  .of_routed (hR.devices h) (fun d => hR.deviceWrite16 h d _ v) a fun ds => check16 ds a

end BusSim

/-- A read's answer where the related states are those of a function `g`. -/
theorem SameAnswer.eq_pair {α : Type} {R : State → State → Prop} {g : State → State} (hg : ∀ s s', R s s' → s' = g s)
    (x x' : α × State) (h : SameAnswer R x x') : x' = (x.1, g x.2) := by
  obtain ⟨hval, hstate⟩ := h
  exact Prod.ext hval (hg _ _ hstate)

/-! ### The upper bits of `mb` -/

/-- The second state is the first but for `mb`, whose new value `m` selects the same bank. -/
def SameBankMb (m : Word) (s s' : State) : Prop := s' = s.setReg .mb m ∧ bankOf (s.getReg .mb) = bankOf m

/-- The cell behind an address depends on the selected bank, not on the rest of `mb` (20_memory.md R44, R45). -/
theorem ramCell_congr {mb mb' : Word} (h : bankOf mb = bankOf mb') (a : Word) : ramCell mb a = ramCell mb' a := by
  rw [ramCell, h, ramCell]

theorem sameBankMb_busSim (m : Word) : BusSim (SameBankMb m) where
  devices := by rintro s _ ⟨rfl, -⟩; rfl
  accesses := by rintro s _ ⟨rfl, -⟩; rfl
  ramRead8 := by
    rintro s _ ⟨rfl, hb⟩ a
    rw [State.ramRead8, State.getReg_setReg_same, State.setReg_ram, State.ramRead8, ramCell_congr hb]
  ramWrite8 := by
    rintro s _ ⟨rfl, hb⟩ a b
    refine ⟨?_, hb⟩
    rw [State.ramWrite8, State.getReg_setReg_same, State.setReg_ram, State.ramWrite8, ramCell_congr hb]
    rfl
  noteAccess := by rintro s _ ⟨rfl, hb⟩ d x; exact ⟨rfl, hb⟩

theorem State.setReg_setReg_same (s : State) (r : Reg) (v w : Word) : (s.setReg r v).setReg r w = s.setReg r w := by
  cases r <;> rfl

theorem sameBankMb_setReg (s : State) {m m' : Word} (h : m.toNat % 4 = m'.toNat % 4) :
    SameBankMb m' (s.setReg .mb m) (s.setReg .mb m') :=
  ⟨(s.setReg_setReg_same .mb m m').symm, by rw [State.getReg_setReg_same]; exact h⟩

/-- Settles O23: states that differ in the upper bits of `mb` are related by a simulation of the bus. -/
theorem upperBankBitsHaveNoEffect : Obligations.UpperBankBitsHaveNoEffect := by
  intro s m m' a v b hm
  have hR := sameBankMb_busSim m'
  have h := sameBankMb_setReg s hm
  have hg : ∀ t t', SameBankMb m' t t' → t' = t.setReg .mb m' := fun _ _ ht => ht.1
  exact ⟨(hR.read8 h a).eq_map (SameAnswer.eq_pair hg), (hR.memRead h a).eq_map (SameAnswer.eq_pair hg),
    (hR.write8 h a b).eq_map hg, (hR.memWrite h a v).eq_map hg⟩

/-! ### Two runs side by side: one step -/

/-- Two handlers that answer alike: the same fault, the same refusal, or the same outcome with related states. -/
inductive Flow.Sim (R : State → State → Prop) : Flow → Flow → Prop where
  | continues {s s' : State} (h : R s s') : Flow.Sim R (.continues s) (.continues s')
  | halts {s s' : State} (h : R s s') : Flow.Sim R (.halts s) (.halts s')
  | faults (r : Fault) : Flow.Sim R (.faults r) (.faults r)
  | refuses (r : Refusal) : Flow.Sim R (.refuses r) (.refuses r)

/-- What `step()` returns alike: the same pair, and related states. -/
def StepReturn.Sim (R : State → State → Prop) (x x' : StepReturn) : Prop :=
  x'.instruction = x.instruction ∧ x'.outcome = x.outcome ∧ R x.after x'.after

/-- What `step()` returns where the related states are those of a function `g`. -/
theorem StepReturn.Sim.eq_mk {R : State → State → Prop} {g : State → State} {x x' : StepReturn} (h : StepReturn.Sim R x x')
    (hg : ∀ s s', R s s' → s' = g s) : x' = ⟨x.instruction, x.outcome, g x.after⟩ := by
  obtain ⟨hinstr, houtcome, hafter⟩ := h
  rw [← hinstr, ← houtcome, ← hg _ _ hafter]

/-- A step cannot tell the states that `B` relates apart. `B` holds while the step may still access the bus, and `A`,
which a register write keeps, from then on: a write to `mb` may select another bank for the next step (10_state.md
R16). -/
structure StepSim (B A : State → State → Prop) : Prop where
  bus : BusSim B
  after : ∀ {s s'}, B s s' → A s s'
  regs : ∀ {s s'}, A s s' → s'.regs = s.regs
  program : ∀ {s s'}, A s s' → s'.program = s.program
  setReg : ∀ {s s'}, A s s' → ∀ r v, A (s.setReg r v) (s'.setReg r v)

theorem State.getReg_congr {s s' : State} (h : s'.regs = s.regs) (r : Reg) : s'.getReg r = s.getReg r :=
  congrArg (RegFile.get · r) h

/-- Fetch reads `pc` and the program buffer alone (40_execution_engine.md R77). -/
theorem State.fetch_congr {s s' : State} (hr : s'.regs = s.regs) (hp : s'.program = s.program) : s'.fetch = s.fetch := by
  rw [State.fetch, State.pc, State.getReg_congr hr, hp, State.fetch]

theorem State.fetchDecode_congr {s s' : State} (hr : s'.regs = s.regs) (hp : s'.program = s.program) :
    s'.fetchDecode = s.fetchDecode := by
  rw [State.fetchDecode, State.fetch_congr hr hp, State.pc, State.getReg_congr hr, State.fetchDecode]

theorem Flow.Sim.withReg {R : State → State → Prop} {s s' : State} {k k' : Reg → Flow} (hr : s'.regs = s.regs)
    (hk : ∀ r, Flow.Sim R (k r) (k' r)) (i : Instr) (b : Byte) : Flow.Sim R (withReg i s b k) (withReg i s' b k') := by
  have hpc : s'.pc = s.pc := State.getReg_congr hr .pc
  rcases withReg_cases i s b k with ⟨r, rfl, h⟩ | ⟨hb, h⟩
  · rw [withReg_byte, withReg_byte]
    exact hk r
  · rw [h, withReg_bad hb, hpc]
    exact .faults _

theorem Flow.Sim.onBus {α : Type} {R : State → State → Prop} {Q : α → α → Prop} {s s' : State} {x x' : BusResult α}
    {k k' : α → Flow} (hr : s'.regs = s.regs) (hx : BusResult.Sim Q x x') (hk : ∀ a a', Q a a' → Flow.Sim R (k a) (k' a'))
    (i : Instr) : Flow.Sim R (onBus i s x k) (onBus i s' x' k') := by
  have hpc : s'.pc = s.pc := State.getReg_congr hr .pc
  cases hx with
  | ok h => exact hk _ _ h
  | busFault addr =>
    rw [Machine.onBus, Machine.onBus, hpc]
    exact .faults _
  | refused r => exact .refuses r

namespace StepSim

variable {B A : State → State → Prop} {s s' : State}

theorem advance (hS : StepSim B A) (h : A s s') : A s.advance s'.advance := by
  rw [State.advance, State.advance, State.pc, State.pc, State.getReg_congr (hS.regs h)]
  exact hS.setReg h .pc _

/-- Every handler answers alike: it reads the registers, makes at most one bus access, and then writes at most one
register. -/
theorem executeOne (hS : StepSim B A) (h : B s s') (i : Instr) : Flow.Sim A (executeOne i s) (executeOne i s') := by
  have hA := hS.after h
  have hregs := hS.regs hA
  have hget := State.getReg_congr hregs
  cases i with
  | nop u => exact .continues hA
  | hlt u => exact .halts hA
  | movLitReg imm rd => exact .withReg hregs (fun d => .continues (hS.setReg hA d imm)) _ _
  | movRegReg rs rd u =>
    refine .withReg hregs (fun r => .withReg hregs (fun d => ?_) _ _) _ _
    rw [hget r]
    exact .continues (hS.setReg hA d _)
  | movRegMem rs addr =>
    refine .withReg hregs (fun r => ?_) _ _
    rw [hget r]
    exact .onBus hregs (hS.bus.memWrite h _ _) (fun _ _ ht => .continues (hS.after ht)) _
  | movMemReg addr rd =>
    refine .withReg hregs (fun d => .onBus hregs (hS.bus.memRead h _) (fun x x' hx => ?_) _) _ _
    obtain ⟨hval, hx⟩ := hx
    rw [hval]
    exact .continues (hS.setReg (hS.after hx) d x.1)
  | addRegReg ra rb u =>
    refine .withReg hregs (fun a => .withReg hregs (fun b => ?_) _ _) _ _
    rw [hget a, hget b]
    exact .continues (hS.setReg hA .ac _)

theorem stepReturn (hS : StepSim B A) (h : A s s') {f f' : Flow} (hf : Flow.Sim A f f') (w : U32) :
    StepReturn.Sim A (f.stepReturn w s) (f'.stepReturn w s') := by
  cases hf with
  | continues ht => exact ⟨rfl, rfl, hS.advance ht⟩
  | halts ht => exact ⟨rfl, rfl, ht⟩
  | faults r => exact ⟨rfl, rfl, h⟩
  | refuses r => exact ⟨rfl, rfl, h⟩

/-- The loop's part keeps next states related (40_execution_engine.md R81). -/
theorem finish_next (hS : StepSim B A) {f f' : Flow} (hf : Flow.Sim A f f') {t : State} (ht : f.finish = .next t) :
    ∃ t', f'.finish = .next t' ∧ A t t' := by
  cases hf with
  | continues hA =>
    cases ht
    exact ⟨_, rfl, hS.advance hA⟩
  | halts hA =>
    cases ht
    exact ⟨_, rfl, hA⟩
  | faults r => cases ht
  | refuses r => cases ht

/-- `step()` of the host port returns alike, faults included. -/
theorem hostStep (hS : StepSim B A) (h : B s s') : StepReturn.Sim A s.hostStep s'.hostStep := by
  have hA := hS.after h
  have hpc : s'.pc = s.pc := State.getReg_congr (hS.regs hA) .pc
  rw [State.hostStep, State.hostStep, State.fetch_congr (hS.regs hA) (hS.program hA)]
  cases s.fetch with
  | none => exact ⟨rfl, by rw [hpc], hA⟩
  | some w =>
    dsimp only
    cases decodeWord w with
    | some i => exact hS.stepReturn hA (hS.executeOne h i) w
    | none => exact ⟨rfl, by rw [hpc], hA⟩

/-- Where one step has a next state, so does the other, and the two are related. -/
theorem step_next (hS : StepSim B A) (h : B s s') {t : State} (hs : step s = .next t) :
    ∃ t', step s' = .next t' ∧ A t t' := by
  have hA := hS.after h
  obtain ⟨i, hi, ht⟩ := step_eq_next.1 hs
  have hi' : s'.fetchDecode = .instr i := (State.fetchDecode_congr (hS.regs hA) (hS.program hA)).trans hi
  rw [exec_eq_finish] at ht
  obtain ⟨t', ht', hAt⟩ := hS.finish_next (hS.executeOne h i) ht
  exact ⟨t', step_eq_next.2 ⟨i, hi', (exec_eq_finish i s').trans ht'⟩, hAt⟩

end StepSim

/-! ### A byte of an unselected bank -/

/-- Everything but cell `c` is the same in both states, and the second one holds `v` there. -/
structure SameButCell (c : Nat) (v : Byte) (s s' : State) : Prop where
  regs : s'.regs = s.regs
  rest : RestSame s s'
  cell : s'.ram.read c = v
  others : CellsSameBut s s' [c]

theorem FixedSame.program {s t : State} (h : FixedSame s t) : t.program = s.program := h.2.1

theorem FixedSame.devices {s t : State} (h : FixedSame s t) : t.devices = s.devices := h.2.2

theorem RestSame.fixed {s t : State} (h : RestSame s t) : FixedSame s t := h.1

theorem RestSame.accesses {s t : State} (h : RestSame s t) : t.accesses = s.accesses := h.2

/-- `SameButCell` for a cell that no address reaches under the present `mb`. -/
structure SameButHiddenCell (c : Nat) (v : Byte) (s s' : State) : Prop where
  same : SameButCell c v s s'
  hidden : ∀ a, ramCell (s.getReg .mb) a ≠ c

/-- No address reaches a byte of a bank that `mb mod 4` does not select (20_memory.md R44). -/
theorem ramCell_ne_bankCell {mb : Word} {b i : Nat} (hi : i < 0x8000) (hb : b ≠ mb.toNat % 4) (a : Word) :
    ramCell mb a ≠ bankCell b i := by
  have ha := a.isLt
  unfold ramCell lowCell bankCell bankOf
  split <;> omega

theorem CellsSameBut.read_write {s s' : State} {cells : List Nat} (h : CellsSameBut s s' cells) (k : Nat) (b : Byte) :
    ∀ c, c ∉ cells → (s'.ram.write k b).read c = (s.ram.write k b).read c := by
  intro c hc
  by_cases hk : c = k
  · rw [hk, Memory.read_write_same, Memory.read_write_same]
  · rw [Memory.read_write_other _ _ hk, Memory.read_write_other _ _ hk, h c hc]

theorem SameButHiddenCell.ramRead8 {c : Nat} {v : Byte} {s s' : State} (h : SameButHiddenCell c v s s') (a : Word) :
    s'.ramRead8 a = s.ramRead8 a := by
  obtain ⟨hsame, hhidden⟩ := h
  rw [State.ramRead8, State.getReg_congr hsame.regs]
  exact hsame.others _ fun hmem => hhidden a (List.mem_singleton.1 hmem)

theorem SameButHiddenCell.ramWrite8 {c : Nat} {v : Byte} {s s' : State} (h : SameButHiddenCell c v s s') (a : Word)
    (b : Byte) : SameButHiddenCell c v (s.ramWrite8 a b) (s'.ramWrite8 a b) := by
  obtain ⟨hsame, hhidden⟩ := h
  have hmb := State.getReg_congr hsame.regs .mb
  refine ⟨⟨hsame.regs, hsame.rest, ?_, ?_⟩, hhidden⟩
  · rw [State.ramWrite8_ram, hmb, Memory.read_write_other _ _ (hhidden a).symm, hsame.cell]
  · rw [CellsSameBut, State.ramWrite8_ram, State.ramWrite8_ram, hmb]
    exact hsame.others.read_write _ b

theorem SameButCell.noteAccess {c : Nat} {v : Byte} {s s' : State} (h : SameButCell c v s s') (d : Device) (x : Access) :
    SameButCell c v (s.noteAccess d x) (s'.noteAccess d x) := by
  obtain ⟨hregs, ⟨hfixed, hacc⟩, hcell, hothers⟩ := h
  refine ⟨hregs, ⟨hfixed, ?_⟩, hcell, hothers⟩
  rw [State.noteAccess_accesses, State.noteAccess_accesses, hacc]

theorem SameButCell.setReg {c : Nat} {v : Byte} {s s' : State} (h : SameButCell c v s s') (r : Reg) (x : Word) :
    SameButCell c v (s.setReg r x) (s'.setReg r x) :=
  ⟨congrArg (RegFile.set · r x) h.regs, h.rest, h.cell, h.others⟩

theorem sameButHiddenCell_busSim (c : Nat) (v : Byte) : BusSim (SameButHiddenCell c v) where
  devices h := h.same.rest.fixed.devices
  accesses h := h.same.rest.accesses
  ramRead8 h a := h.ramRead8 a
  ramWrite8 h a b := h.ramWrite8 a b
  noteAccess h d x := ⟨h.same.noteAccess d x, h.hidden⟩

theorem sameButCell_stepSim (c : Nat) (v : Byte) : StepSim (SameButHiddenCell c v) (SameButCell c v) where
  bus := sameButHiddenCell_busSim c v
  after h := h.same
  regs h := h.regs
  program h := h.rest.fixed.program
  setReg h r x := h.setReg r x

theorem sameButCell_write (s : State) (c : Nat) (v : Byte) : SameButCell c v s { s with ram := s.ram.write c v } where
  regs := rfl
  rest := ⟨⟨rfl, rfl, rfl⟩, rfl⟩
  cell := s.ram.read_write_same c v
  others _ ha := s.ram.read_write_other v (List.ne_of_not_mem_cons ha)

/-- Settles O60: a cell that the present `mb` hides is outside what a step can tell apart. -/
theorem unselectedBanksAreUnobservable : Obligations.UnselectedBanksAreUnobservable := by
  intro s t b i v _ hi hb hs
  have hstart : SameButHiddenCell (bankCell b i) v s { s with ram := s.ram.write (bankCell b i) v } :=
    ⟨sameButCell_write s _ v, ramCell_ne_bankCell hi hb⟩
  obtain ⟨t', ht', hsame⟩ := (sameButCell_stepSim _ v).step_next hstart hs
  exact ⟨t', ht', hsame.regs, hsame.rest, hsame.cell, hsame.others⟩

/-! ### The status stub -/

/-- The second state is the first with `v` in the status stub. -/
def StatusReplaced (v : Word) (s s' : State) : Prop := s' = { s with status := v }

theorem statusReplaced_busSim (v : Word) : BusSim (StatusReplaced v) where
  devices := by rintro s _ rfl; rfl
  accesses := by rintro s _ rfl; rfl
  ramRead8 := by rintro s _ rfl a; rfl
  ramWrite8 := by rintro s _ rfl a b; rfl
  noteAccess := by rintro s _ rfl d x; rfl

theorem statusReplaced_stepSim (v : Word) : StepSim (StatusReplaced v) (StatusReplaced v) where
  bus := statusReplaced_busSim v
  after h := h
  regs := by rintro s _ rfl; rfl
  program := by rintro s _ rfl; rfl
  setReg := by rintro s _ rfl r x; rfl

theorem hostStep_status (s : State) (v : Word) :
    ({ s with status := v } : State).hostStep =
      ⟨s.hostStep.instruction, s.hostStep.outcome, { s.hostStep.after with status := v }⟩ := by
  have h : StatusReplaced v s { s with status := v } := rfl
  exact ((statusReplaced_stepSim v).hostStep h).eq_mk fun _ _ ht => ht

/-- `execute()` for any bound, by induction on the number of steps. -/
theorem executeFor_status (v : Word) (n : Nat) : ∀ s : State,
    ({ s with status := v } : State).executeFor n =
      (s.executeFor n).map fun x => ⟨x.instruction, x.outcome, { x.after with status := v }⟩ := by
  induction n with
  | zero => exact fun _ => rfl
  | succ n ih =>
    intro s
    rw [State.executeFor, hostStep_status, State.executeFor]
    by_cases hc : s.hostStep.outcome = .continues
    · rw [if_pos hc, if_pos hc, ih]
    · rw [if_neg hc, if_neg hc]
      rfl

theorem loadProgram_status (s : State) (v a : Word) (bytes : List Byte) :
    ({ s with status := v } : State).loadProgram a bytes =
      (s.loadProgram a bytes).map fun t => { t with status := v } := by
  unfold State.loadProgram
  split <;> rfl

/-- Settles O59: states that differ in the status stub are related by a simulation of the step and of the bus. -/
theorem statusStubIsUnobservable : Obligations.StatusStubIsUnobservable := by
  intro s v
  have hR := statusReplaced_busSim v
  have h : StatusReplaced v s { s with status := v } := rfl
  have hg : ∀ t t', StatusReplaced v t t' → t' = { t with status := v } := fun _ _ ht => ht
  exact ⟨hostStep_status s v, fun n => executeFor_status v n s, fun _ => rfl,
    fun a => (hR.read8 h a).eq_map (SameAnswer.eq_pair hg), fun a => (hR.memRead h a).eq_map (SameAnswer.eq_pair hg),
    fun a b => (hR.write8 h a b).eq_map hg, fun a x => (hR.memWrite h a x).eq_map hg, loadProgram_status s v, rfl⟩

end Sys2Proof.Machine
end

section
/-! SUPPORT and proofs of the memory statements (20_memory.md): well-formed device lists and the router, the byte and
16-bit accesses on the RAM device and on an added one, the two memory instructions, and what no step changes. -/

namespace Sys2Proof.Machine

/-! ### One device -/

theorem Device.claims_iff {d : Device} {a : Word} :
    d.claims a = true ↔ d.start.toNat ≤ a.toNat ∧ a.toNat ≤ d.stop.toNat := by
  simp [Device.claims]

theorem Device.localAddr_of_remap {d : Device} (h : d.remap = true) (a : Word) : d.localAddr a = a - d.start := by
  simp [Device.localAddr, h]

theorem Device.localAddr_of_not_remap {d : Device} (h : d.remap = false) (a : Word) : d.localAddr a = a := by
  simp [Device.localAddr, h]

/-- Settles O17: from the range's start up the 16-bit difference is the difference of the numbers. -/
theorem remapSubtractsTheRangeStart : Obligations.RemapSubtractsTheRangeStart := by
  intro d a hclaims
  obtain ⟨hstart, -⟩ := Device.claims_iff.1 hclaims
  refine ⟨fun h => ?_, fun h => d.localAddr_of_not_remap h a⟩
  rw [d.localAddr_of_remap h]
  exact BitVec.toNat_sub_of_le (BitVec.le_def.2 hstart)

/-- A range stays below 0x8001 exactly when it holds no address from there up: its last address is one it holds. -/
theorem Device.meetsHigh_eq_false_iff {d : Device} (hrange : d.start.toNat ≤ d.stop.toNat) :
    d.meetsHigh = false ↔ ∀ a : Word, 0x8001 ≤ a.toNat → d.claims a = false := by
  simp only [Device.meetsHigh, decide_eq_false_iff_not, Nat.not_le]
  constructor
  · intro hstop a ha
    rw [Bool.eq_false_iff, ne_eq, Device.claims_iff]
    omega
  · intro h
    by_contra hstop
    have hlast : d.claims d.stop = true := Device.claims_iff.2 ⟨hrange, le_rfl⟩
    rw [h d.stop (by omega)] at hlast
    cases hlast

/-- A range contains [0x8001, 0xFFFF] exactly when it holds each of its addresses: the two ends decide. -/
theorem Device.coversHigh_iff {d : Device} :
    d.coversHigh = true ↔ ∀ a : Word, 0x8001 ≤ a.toNat → d.claims a = true := by
  simp only [Device.coversHigh, Bool.and_eq_true, decide_eq_true_eq, Device.claims_iff]
  constructor
  · rintro ⟨hstart, hstop⟩ a ha
    have := a.isLt
    omega
  · intro h
    obtain ⟨hstart, -⟩ := h 0x8001 (by decide)
    obtain ⟨-, hstop⟩ := h 0xFFFF (by decide)
    have := d.stop.isLt
    exact ⟨hstart, le_antisymm (by omega) hstop⟩

/-! ### Device lists and the router -/

/-- The conditions of 20_memory.md R32 on a list with a first device. -/
theorem busWellFormed_cons {d : Device} {rest : List Device} :
    busWellFormed (d :: rest) = true ↔ (d.kind = .bankedRam ∧ d.remap = false) ∧ d.start.toNat ≤ d.stop.toNat ∧
      d.coversHigh = true ∧ ∀ e ∈ rest, e.kind = .other ∧ e.start.toNat ≤ e.stop.toNat ∧ e.meetsHigh = false := by
  simp [busWellFormed, Device.rangeOk, and_assoc]

/-- A well-formed list has a first device. -/
theorem exists_head_of_busWellFormed {devices : List Device} (hw : busWellFormed devices = true) :
    ∃ d, devices.head? = some d := by
  cases devices with
  | nil => cases hw
  | cons d rest => exact ⟨d, rfl⟩

/-- The conditions of 20_memory.md R32(c) and R32(d), said with the addresses a device claims. -/
theorem busWellFormed_iff (devices : List Device) : busWellFormed devices = true ↔
    ∃ d rest, devices = d :: rest ∧ (d.kind = .bankedRam ∧ d.remap = false) ∧ (∀ e ∈ rest, e.kind = .other) ∧
      (∀ e ∈ devices, e.start.toNat ≤ e.stop.toNat) ∧
      (∀ e ∈ rest, ∀ a : Word, 0x8001 ≤ a.toNat → e.claims a = false) ∧
      ∀ a : Word, 0x8001 ≤ a.toNat → d.claims a = true := by
  constructor
  · intro hw
    cases devices with
    | nil => cases hw
    | cons d rest =>
      obtain ⟨hram, hrange, hcovers, hrest⟩ := busWellFormed_cons.1 hw
      refine ⟨d, rest, rfl, hram, fun e he => (hrest e he).1, ?_, fun e he => ?_, Device.coversHigh_iff.1 hcovers⟩
      · exact List.forall_mem_cons.2 ⟨hrange, fun e he => (hrest e he).2.1⟩
      · obtain ⟨-, herange, hlow⟩ := hrest e he
        exact (Device.meetsHigh_eq_false_iff herange).1 hlow
  · rintro ⟨d, rest, rfl, hram, hadded, hranges, hlow, hhigh⟩
    obtain ⟨hrange, hranges⟩ := List.forall_mem_cons.1 hranges
    exact busWellFormed_cons.2 ⟨hram, hrange, Device.coversHigh_iff.2 hhigh, fun e he =>
      ⟨hadded e he, hranges e he, (Device.meetsHigh_eq_false_iff (hranges e he)).2 (hlow e he)⟩⟩

theorem Session.create_eq_none {devices : List Device} :
    Session.create devices = none ↔ busWellFormed devices = false := by
  unfold Session.create
  cases busWellFormed devices <;> simp

/-- Above 0x8000 the router answers device 0 without a scan (20_memory.md R33). -/
theorem findDevice_high (devices : List Device) {a : Word} (h : 0x8000 < a.toNat) :
    findDevice devices a = devices.head? := if_pos h

/-- Up to 0x8000 the router scans the list. -/
theorem findDevice_low (devices : List Device) {a : Word} (h : a.toNat ≤ 0x8000) :
    findDevice devices a = devices.find? fun d => d.claims a := if_neg (Nat.not_lt.2 h)

/-- Settles O16: the fast path, and the library's account of the first element that meets a test. -/
theorem routerTakesFastPathThenFirstMatch : Obligations.RouterTakesFastPathThenFirstMatch := by
  refine ⟨fun devices _ => findDevice_high devices, fun devices a d ha => ?_, findDevice_default⟩
  rw [findDevice_low devices ha, List.find?_eq_some_iff_append]
  simp only [Bool.not_eq_true', Bool.eq_false_iff, ne_eq, Device.claims_iff]
  constructor
  · rintro ⟨hclaims, before, after, hlist, hbefore⟩
    exact ⟨before, after, hlist, hclaims, hbefore⟩
  · rintro ⟨before, after, hlist, hclaims, hbefore⟩
    exact ⟨hclaims, before, after, hlist, hbefore⟩

theorem check16_of_notFound {devices : List Device} {a : Word} (h : findDevice devices a = none) :
    check16 devices a = none := by
  simp [check16, h]

/-- On the device found, a 16-bit access faults where its second byte is past 0xFFFF or past the device's end. -/
theorem check16_of_found {devices : List Device} {a : Word} {d : Device} (h : findDevice devices a = some d) :
    check16 devices a = none ↔ a = 0xFFFF ∨ ¬ a.toNat + 1 ≤ d.stop.toNat := by
  have hlast : a.toNat = 0xFFFF ↔ a = 0xFFFF := BitVec.toNat_inj (y := 0xFFFF)
  simp only [check16, h, ← hlast, Nat.not_le]
  split_ifs with hfirst hsecond
  · exact iff_of_true rfl (.inl hfirst)
  · exact iff_of_true rfl (.inr hsecond)
  · exact iff_of_false not_false (not_or.2 ⟨hfirst, hsecond⟩)

/-- Settles O18, by what the router finds. -/
theorem wordAccessFaultConditions : Obligations.WordAccessFaultConditions := by
  intro devices a
  cases h : findDevice devices a with
  | none => simp [check16_of_notFound h]
  | some d => simp [check16_of_found h]

/-! ### The RAM bytes -/

theorem State.ramRead8_low (s : State) {a : Word} (h : a.toNat ≤ 0x7FFF) : s.ramRead8 a = s.low a.toNat := by
  rw [State.ramRead8, ramCell_low h, State.low]

theorem State.ramRead8_high (s : State) {a : Word} (h : 0x8000 ≤ a.toNat) :
    s.ramRead8 a = s.bank ((s.getReg .mb).toNat % 4) (a.toNat - 0x8000) := by
  rw [State.ramRead8, ramCell_high h, State.bank, bankOf]

@[simp] theorem State.ramRead8_ramWrite8_same (s : State) (a : Word) (b : Byte) : (s.ramWrite8 a b).ramRead8 a = b :=
  Memory.read_write_same _ _ b

theorem State.ramRead8_ramWrite8_other (s : State) {a a' : Word} (b : Byte) (h : a' ≠ a) :
    (s.ramWrite8 a b).ramRead8 a' = s.ramRead8 a' :=
  Memory.read_write_other _ b (mt ramCell_inj.1 h)

/-- The loop's advance leaves every RAM byte and the bank it is read from as they were. -/
@[simp] theorem State.ramRead8_advance (s : State) (a : Word) : s.advance.ramRead8 a = s.ramRead8 a := by
  rw [State.ramRead8, State.advance_ram, s.advance_other (by decide), State.ramRead8]

/-! ### What stays the same -/

theorem RegsSameBut.of_regs {s t : State} (h : t.regs = s.regs) (changed : List Reg) : RegsSameBut s t changed :=
  fun r _ => State.getReg_congr h r

theorem CellsSameBut.of_ram {s t : State} (h : t.ram = s.ram) (changed : List Nat) : CellsSameBut s t changed :=
  fun c _ => congrArg (Memory.read · c) h

/-- A byte written to the RAM device changes the one cell behind its address. -/
theorem CellsSameBut.ramWrite8 {s t : State} {changed : List Nat} (h : CellsSameBut s t changed) (a : Word) (b : Byte) :
    CellsSameBut s (t.ramWrite8 a b) (ramCell (t.getReg .mb) a :: changed) := by
  intro c hc
  obtain ⟨hne, hc⟩ := not_or.1 (mt List.mem_cons.2 hc)
  rw [State.ramWrite8_ram, Memory.read_write_other _ b hne, h c hc]

theorem CellsSameBut.refl (s : State) (changed : List Nat) : CellsSameBut s s changed := .of_ram rfl changed

theorem RegsSameBut.setReg {s t : State} {changed : List Reg} (h : RegsSameBut s t changed) {r : Reg} (hr : r ∈ changed)
    (v : Word) : RegsSameBut s (t.setReg r v) changed := by
  intro q hq
  have hne : q ≠ r := fun e => hq (e ▸ hr)
  rw [State.getReg_setReg_other t v hne, h q hq]

theorem RegsSameBut.advance {s t : State} {changed : List Reg} (h : RegsSameBut s t changed) (hpc : .pc ∈ changed) :
    RegsSameBut s t.advance changed := h.setReg hpc _

theorem FixedSame.refl (s : State) : FixedSame s s := ⟨rfl, rfl, rfl⟩

theorem FixedSame.setReg {s t : State} (h : FixedSame s t) (r : Reg) (v : Word) : FixedSame s (t.setReg r v) := h

theorem FixedSame.advance {s t : State} (h : FixedSame s t) : FixedSame s t.advance := h

/-! ### The byte accesses -/

theorem State.read8_of_notFound {s : State} {a : Word} (hw : busWellFormed s.devices = true)
    (h : findDevice s.devices a = none) : s.read8 a = .busFault a :=
  BusResult.map_eq_busFault.2 (State.routed_eq_busFault.2 ⟨hw, h, rfl⟩)

theorem State.write8_of_notFound {s : State} {a : Word} (hw : busWellFormed s.devices = true)
    (h : findDevice s.devices a = none) (b : Byte) : s.write8 a b = .busFault a :=
  BusResult.map_eq_busFault.2 (State.routed_eq_busFault.2 ⟨hw, h, rfl⟩)

/-- `Read8` where the first device owns the address: the RAM byte, and no change (20_memory.md R35, R49). -/
theorem State.read8_of_head {s : State} {a : Word} (hw : busWellFormed s.devices = true)
    (h : findDevice s.devices a = s.devices.head?) : s.read8 a = .ok (s.ramRead8 a, s) := by
  obtain ⟨d, hd⟩ := exists_head_of_busWellFormed hw
  obtain ⟨hkind, hremap⟩ := busWellFormed_head hw hd
  exact State.read8_eq_ok.2
    ⟨d, hw, h.trans hd, by rw [State.deviceRead8_ram hkind, Device.localAddr_of_not_remap hremap]⟩

/-- `Write8` where the first device owns the address: one RAM byte written (20_memory.md R36, R45). -/
theorem State.write8_of_head {s : State} {a : Word} (hw : busWellFormed s.devices = true)
    (h : findDevice s.devices a = s.devices.head?) (b : Byte) : s.write8 a b = .ok (s.ramWrite8 a b) := by
  obtain ⟨d, hd⟩ := exists_head_of_busWellFormed hw
  obtain ⟨hkind, hremap⟩ := busWellFormed_head hw hd
  exact State.write8_eq_ok.2
    ⟨d, hw, h.trans hd, by rw [State.deviceWrite8_ram hkind, Device.localAddr_of_not_remap hremap]⟩

theorem State.read8_of_added {s : State} {a : Word} {d : Device} (hw : busWellFormed s.devices = true)
    (h : findDevice s.devices a = some d) (hkind : d.kind = .other) :
    s.read8 a =
      .ok (Config.deviceRead8 d (s.accessesOf d) (d.localAddr a), s.noteAccess d (.read (d.localAddr a))) :=
  State.read8_eq_ok.2 ⟨d, hw, h, (State.deviceRead8_added hkind _).symm⟩

theorem State.write8_of_added {s : State} {a : Word} {d : Device} (hw : busWellFormed s.devices = true)
    (h : findDevice s.devices a = some d) (hkind : d.kind = .other) (b : Byte) :
    s.write8 a b = .ok (s.noteAccess d (.write (d.localAddr a) b)) :=
  State.write8_eq_ok.2 ⟨d, hw, h, (State.deviceWrite8_added hkind _ b).symm⟩

/-- One more request leaves the machine as it was: it is noted with the device alone. -/
theorem noteAccess_frame (s : State) (d : Device) (x : Access) :
    CellsSameBut s (s.noteAccess d x) [] ∧ RegsSameBut s (s.noteAccess d x) [] ∧ FixedSame s (s.noteAccess d x) :=
  ⟨.of_ram rfl [], .of_regs rfl [], .refl s⟩

/-- Settles O19, by the owner of the address: none, the first device, or an added one. -/
theorem byteAccessSelectsLowOrBank : Obligations.ByteAccessSelectsLowOrBank := by
  intro s a b hw
  refine ⟨fun hnone => ?notFound, fun hhead => ?ram, fun d hd hkind => ?added⟩
  case notFound => exact ⟨State.read8_of_notFound hw hnone, State.write8_of_notFound hw hnone b⟩
  case ram =>
    have hread := State.read8_of_head hw hhead
    refine ⟨fun hlow => by rw [hread, s.ramRead8_low hlow], fun hhigh => by rw [hread, s.ramRead8_high hhigh],
      s.ramWrite8 a b, State.write8_of_head hw hhead b, ?_, (CellsSameBut.refl s []).ramWrite8 a b, .of_regs rfl [],
      .refl s, rfl⟩
    rw [State.read8_of_head (s := s.ramWrite8 a b) hw hhead, State.ramRead8_ramWrite8_same]
  case added =>
    exact ⟨⟨_, State.read8_of_added hw hd hkind, rfl, noteAccess_frame s d _⟩,
      ⟨_, State.write8_of_added hw hd hkind b, rfl, noteAccess_frame s d _⟩⟩

/-! ### The 16-bit accesses on the RAM device -/

/-- Where an access reaches the RAM device depends on the device list alone. -/
theorem ReachesRam.congr {s t : State} {a : Word} {d : Device} (h : ReachesRam s a d) (hd : t.devices = s.devices) :
    ReachesRam t a d := by
  unfold ReachesRam
  rw [hd]
  exact h

theorem word_ne_add_one (a : Word) : a ≠ a + 1 := by
  bv_omega

/-- The state after a word was written to the RAM device at `a`: the low byte first, then the high byte. -/
def State.ramWrite16 (s : State) (a v : Word) : State := (s.ramWrite8 a (lo v)).ramWrite8 (a + 1) (hi v)

theorem ReachesRam.memWrite_eq {s : State} {a : Word} {d : Device} (h : ReachesRam s a d) (v : Word) :
    s.memWrite a v = .ok (s.ramWrite16 a v) := h.memWrite v

@[simp] theorem State.ramRead8_ramWrite16_lo (s : State) (a v : Word) : (s.ramWrite16 a v).ramRead8 a = lo v := by
  rw [State.ramWrite16, State.ramRead8_ramWrite8_other _ _ (word_ne_add_one a), State.ramRead8_ramWrite8_same]

@[simp] theorem State.ramRead8_ramWrite16_hi (s : State) (a v : Word) : (s.ramWrite16 a v).ramRead8 (a + 1) = hi v :=
  State.ramRead8_ramWrite8_same _ _ _

/-- A word written to the RAM device reads back, and the read changes nothing (20_memory.md R50). -/
theorem ReachesRam.memRead_ramWrite16 {s : State} {a : Word} {d : Device} (h : ReachesRam s a d) (v : Word) :
    (s.ramWrite16 a v).memRead a = .ok (v, s.ramWrite16 a v) := by
  have h' : ReachesRam (s.ramWrite16 a v) a d := h.congr rfl
  rw [h'.memRead, State.ramRead8_ramWrite16_lo, State.ramRead8_ramWrite16_hi, word_lo_hi]

/-- A word written to the RAM device changes the two cells behind its addresses. -/
theorem cellsSameBut_ramWrite16 (s : State) (a v : Word) :
    CellsSameBut s (s.ramWrite16 a v) [ramCell (s.getReg .mb) a, ramCell (s.getReg .mb) (a + 1)] := by
  have h := ((CellsSameBut.refl s []).ramWrite8 a (lo v)).ramWrite8 (a + 1) (hi v)
  exact fun c hc => h c (by simpa [and_comm] using hc)

/-- Settles O20, by the laws of a word written to the RAM device, which does not remap. -/
theorem wordWriteIsLittleEndian : Obligations.WordWriteIsLittleEndian := by
  intro s addr v d h
  rw [h.localAddr]
  exact ⟨s.ramWrite16 addr v, h.memWrite_eq v, h.memRead_ramWrite16 v, s.ramRead8_ramWrite16_lo addr v,
    s.ramRead8_ramWrite16_hi addr v, cellsSameBut_ramWrite16 s addr v, .of_regs rfl [], .refl s, rfl⟩

/-- On the default list every byte read answers a RAM byte. -/
theorem State.read8_default {s : State} (h : s.devices = defaultDevices) (a : Word) :
    s.read8 a = .ok (s.ramRead8 a, s) :=
  State.read8_of_head (h ▸ defaultDevices_wellFormed) (by rw [h]; exact findDevice_default a)

/-- Settles O21: on the default list both bytes of the word are RAM bytes. -/
theorem wordWriteThenByteReads : Obligations.WordWriteThenByteReads := by
  intro s addr v hd hlast
  have hd' : (s.ramWrite16 addr v).devices = defaultDevices := hd
  refine ⟨s.ramWrite16 addr v, (reachesRam_default hd hlast).memWrite_eq v, ?_, ?_⟩
  · rw [State.read8_default hd', State.ramRead8_ramWrite16_lo]
  · rw [State.read8_default hd', State.ramRead8_ramWrite16_hi]

/-! ### The memory instructions -/

/-- The outcome of `mov_reg_mem` once its register operand is checked. -/
theorem exec_movRegMem_byte (r : Reg) (addr : Word) (s : State) :
    exec (.movRegMem r.byte addr) s =
      (onBus (.movRegMem r.byte addr) s (s.memWrite addr (s.getReg r)) fun s' => .continues s').finish := by
  rw [exec_eq_finish, executeOne, flowMovRegMem, withReg_byte, effectiveAddress]

/-- The outcome of `mov_mem_reg` once its register operand is checked. -/
theorem exec_movMemReg_byte (addr : Word) (r : Reg) (s : State) :
    exec (.movMemReg addr r.byte) s =
      (onBus (.movMemReg addr r.byte) s (s.memRead addr) fun x => .continues (x.2.setReg r x.1)).finish := by
  rw [exec_eq_finish, executeOne, flowMovMemReg, withReg_byte, effectiveAddress]

theorem exec_movRegMem_of_ok {r : Reg} {addr : Word} {s t : State} (h : s.memWrite addr (s.getReg r) = .ok t) :
    exec (.movRegMem r.byte addr) s = .next t.advance := by
  rw [exec_movRegMem_byte, h]
  rfl

theorem exec_movMemReg_of_ok {addr v : Word} {s t : State} (h : s.memRead addr = .ok (v, t)) (r : Reg) :
    exec (.movMemReg addr r.byte) s = .next (t.setReg r v).advance := by
  rw [exec_movMemReg_byte, h]
  rfl

/-- Both memory instructions are refused on an ill-formed list (log entry 4). -/
theorem exec_memory_of_illFormed {s : State} (h : busWellFormed s.devices = false) (r : Reg) (addr : Word) :
    exec (.movRegMem r.byte addr) s = .refused .illFormedDeviceList ∧
      exec (.movMemReg addr r.byte) s = .refused .illFormedDeviceList := by
  rw [exec_movRegMem_byte, exec_movMemReg_byte, State.memWrite_eq_refused.2 ⟨h, rfl⟩,
    State.memRead_eq_refused.2 ⟨h, rfl⟩]
  exact ⟨rfl, rfl⟩

/-- Settles O15, by the conditions of a well-formed list and the two places where another list is refused. -/
theorem deviceListIsRefusedUnlessWellFormed : Obligations.DeviceListIsRefusedUnlessWellFormed :=
  ⟨busWellFormed_iff, fun _ => Session.create_eq_none, fun r addr _ h => exec_memory_of_illFormed h r addr,
    defaultDevices_wellFormed⟩

/-- Settles O37: the one bus access of each instruction is a bus fault, which the loop hands on. -/
theorem busFaultEndsTheMemoryInstruction : Obligations.BusFaultEndsTheMemoryInstruction := by
  refine ⟨fun r addr s hw hcheck => ?_, by decide⟩
  rw [exec_movRegMem_byte, exec_movMemReg_byte, State.memWrite_eq_busFault.2 ⟨hw, hcheck, rfl⟩,
    State.memRead_eq_busFault.2 ⟨hw, hcheck, rfl⟩]
  exact ⟨rfl, rfl⟩

/-- Settles O35: the load finds the word that the store left, since `pc`'s advance between them touches no RAM byte. -/
theorem storeThenLoadReturnsTheValue : Obligations.StoreThenLoadReturnsTheValue := by
  intro rs rd addr s d h
  have hstore := exec_movRegMem_of_ok (h.memWrite_eq (s.getReg rs))
  have h' : ReachesRam (s.ramWrite16 addr (s.getReg rs)).advance addr d := h.congr rfl
  have hload := exec_movMemReg_of_ok h'.memRead rd
  rw [State.ramRead8_advance, State.ramRead8_advance, State.ramRead8_ramWrite16_lo, State.ramRead8_ramWrite16_hi,
    word_lo_hi] at hload
  refine ⟨_, _, hstore, hload, ?_⟩
  by_cases hrd : rd = .pc
  · subst hrd
    rw [State.advance_pc, State.getReg_setReg_same, if_pos rfl]
  · rw [State.advance_other _ hrd, State.getReg_setReg_same, if_neg hrd]
    exact (BitVec.add_zero _).symm

theorem ReachesAdded.memWrite {s : State} {a : Word} {d : Device} (h : ReachesAdded s a d) (v : Word) :
    s.memWrite a v =
      .ok ((s.noteAccess d (.write (d.localAddr a) (lo v))).noteAccess d (.write (d.localAddr a + 1) (hi v))) := by
  obtain ⟨hw, hcheck, hkind⟩ := h
  exact State.memWrite_eq_ok.2 ⟨d, hw, hcheck, (State.deviceWrite16_added hkind _ v).symm⟩

theorem ReachesAdded.memRead {s : State} {a : Word} {d : Device} (h : ReachesAdded s a d) :
    s.memRead a =
      .ok (word (Config.deviceRead8 d (s.accessesOf d) (d.localAddr a))
          (Config.deviceRead8 d (s.accessesOf d ++ [.read (d.localAddr a)]) (d.localAddr a + 1)),
        (s.noteAccess d (.read (d.localAddr a))).noteAccess d (.read (d.localAddr a + 1))) := by
  obtain ⟨hw, hcheck, hkind⟩ := h
  exact State.memRead_eq_ok.2 ⟨d, hw, hcheck, (State.deviceRead16_added hkind _).symm⟩

/-- Two requests stand after those before them, in their order. -/
theorem noteAccess_noteAccess_accesses (s : State) (d : Device) (x y : Access) :
    ((s.noteAccess d x).noteAccess d y).accesses = s.accesses ++ [⟨d, x⟩, ⟨d, y⟩] := by
  simp

/-- `pc` after a register write and the advance: the loop adds its 4 to what the handler wrote (10_state.md R21). -/
theorem State.getReg_pc_advance_setReg (s : State) (r : Reg) (v : Word) :
    (s.setReg r v).advance.getReg .pc = (if r = .pc then v else s.getReg .pc) + 4 := by
  rw [State.advance_pc]
  split
  case isTrue h => rw [h, State.getReg_setReg_same]
  case isFalse h => rw [State.getReg_setReg_other s v (Ne.symm h)]

/-- Settles O38: the two requests of a 16-bit access, in order, and the frame of each instruction around them. -/
theorem addedDeviceGetsBothBytesInOrder : Obligations.AddedDeviceGetsBothBytesInOrder := by
  intro r addr s d h
  refine ⟨⟨_, exec_movRegMem_of_ok (h.memWrite _), noteAccess_noteAccess_accesses s d _ _, State.advance_pc _,
    (RegsSameBut.of_regs rfl [.pc]).advance (List.mem_singleton.2 rfl), .of_ram rfl [], .refl s⟩, ?_⟩
  rintro v rfl
  refine ⟨_, exec_movMemReg_of_ok h.memRead r, noteAccess_noteAccess_accesses s d _ _,
    State.getReg_pc_advance_setReg _ r _, fun hr => ?_, ?_, .of_ram rfl [], .refl s⟩
  · rw [State.advance_other _ hr, State.getReg_setReg_same]
  · exact ((RegsSameBut.of_regs rfl [.pc, r]).setReg (by simp) _).advance (by simp)

/-! ### What no step changes -/

theorem memRead_fixedSame {s : State} {a : Word} {x : Word × State} (h : s.memRead a = .ok x) : FixedSame s x.2 := by
  obtain ⟨d, -, -, rfl⟩ := State.memRead_eq_ok.1 h
  obtain ⟨-, -, hfixed⟩ := s.deviceRead16_frame d (d.localAddr a)
  exact hfixed

theorem memWrite_fixedSame {s t : State} {a v : Word} (h : s.memWrite a v = .ok t) : FixedSame s t := by
  obtain ⟨d, -, -, rfl⟩ := State.memWrite_eq_ok.1 h
  obtain ⟨-, hfixed⟩ := s.deviceWrite16_frame d (d.localAddr a) v
  exact hfixed

theorem exec_fixedSame {i : Instr} {s t : State} (h : exec i s = .next t) : FixedSame s t := by
  rcases exec_next_cases h with ⟨-, rfl⟩ | rfl | ⟨r, v, rfl⟩ | ⟨a, v, u, hu, rfl⟩ | ⟨a, r, x, hx, rfl⟩
  · exact .refl t
  · exact (FixedSame.refl s).advance
  · exact ((FixedSame.refl s).setReg r v).advance
  · exact (memWrite_fixedSame hu).advance
  · exact ((memRead_fixedSame hx).setReg r x.1).advance

/-- Settles O46: a step with a next state ran one instruction. -/
theorem stepKeepsProgramDevicesAndStatus : Obligations.StepKeepsProgramDevicesAndStatus := fun _ _ hs =>
  let ⟨_, _, ht⟩ := step_eq_next.1 hs
  exec_fixedSame ht

theorem State.deviceWrite8_regs (s : State) (d : Device) (l : Word) (b : Byte) :
    (s.deviceWrite8 d l b).regs = s.regs := by
  cases h : d.kind with
  | bankedRam => rw [State.deviceWrite8_ram h]; rfl
  | other => rw [State.deviceWrite8_added h]; rfl

/-- No byte write of a device reaches a bank that `mb mod 4` does not select (20_memory.md R47). -/
theorem State.bank_deviceWrite8 {s : State} {k i : Nat} (hi : i < 0x8000) (hk : k ≠ (s.getReg .mb).toNat % 4)
    (d : Device) (l : Word) (b : Byte) : (s.deviceWrite8 d l b).bank k i = s.bank k i := by
  cases h : d.kind with
  | bankedRam =>
    rw [State.deviceWrite8_ram h, State.bank, State.ramWrite8_ram]
    exact Memory.read_write_other _ b (ramCell_ne_bankCell hi hk l).symm
  | other => rw [State.deviceWrite8_added h]; rfl

theorem State.bank_deviceWrite16 {s : State} {k i : Nat} (hi : i < 0x8000) (hk : k ≠ (s.getReg .mb).toNat % 4)
    (d : Device) (l v : Word) : (s.deviceWrite16 d l v).bank k i = s.bank k i := by
  have hmb := State.getReg_congr (s.deviceWrite8_regs d l (lo v)) .mb
  rw [State.deviceWrite16, State.bank_deviceWrite8 hi (hmb ▸ hk), State.bank_deviceWrite8 hi hk]

theorem State.bank_congr {s t : State} (h : t.ram = s.ram) (k i : Nat) : t.bank k i = s.bank k i := by
  rw [State.bank, h, State.bank]

/-- Settles O22: of all that a step can do only a stored word changes RAM bytes, and none of an unselected bank. -/
theorem unselectedBanksStayUnchanged : Obligations.UnselectedBanksStayUnchanged := by
  intro s t b i hs _ hi hb
  obtain ⟨_, -, ht⟩ := step_eq_next.1 hs
  rcases exec_next_cases ht with ⟨-, rfl⟩ | rfl | ⟨r, v, rfl⟩ | ⟨a, v, u, hu, rfl⟩ | ⟨a, r, x, hx, rfl⟩
  · rfl
  · exact State.bank_congr s.advance_ram b i
  · exact State.bank_congr rfl b i
  · obtain ⟨d, -, -, rfl⟩ := State.memWrite_eq_ok.1 hu
    exact State.bank_deviceWrite16 hi hb d _ v
  · obtain ⟨d, -, -, rfl⟩ := State.memRead_eq_ok.1 hx
    obtain ⟨-, hram, -⟩ := s.deviceRead16_frame d (d.localAddr a)
    exact State.bank_congr hram b i

/-! ### No run over a well-formed list is refused -/

theorem withReg_eq_refuses {i : Instr} {s : State} {b : Byte} {k : Reg → Flow} {q : Refusal} :
    withReg i s b k = .refuses q ↔ ∃ r, b = Reg.byte r ∧ k r = .refuses q := by
  constructor
  · intro h
    rcases withReg_cases i s b k with ⟨r, hb, hr⟩ | ⟨-, hr⟩
    · exact ⟨r, hb, hr ▸ h⟩
    · simp [hr] at h
  · rintro ⟨r, rfl, h⟩
    rw [withReg_byte, h]

theorem onBus_eq_refuses {α : Type} {i : Instr} {s : State} {x : BusResult α} {k : α → Flow} {q : Refusal} :
    onBus i s x k = .refuses q ↔ x = .refused q ∨ ∃ v, x = .ok v ∧ k v = .refuses q := by
  cases x <;> simp [onBus]

theorem Flow.finish_eq_refused {f : Flow} {q : Refusal} : f.finish = .refused q ↔ f = .refuses q := by
  cases f <;> simp [Flow.finish]

/-- The one refusal of `execute_one` is the bus access of a memory instruction over an ill-formed list. -/
theorem illFormed_of_executeOne_refuses {i : Instr} {s : State} {q : Refusal} (h : executeOne i s = .refuses q) :
    busWellFormed s.devices = false := by
  cases i with
  | nop u => cases h
  | hlt u => cases h
  | movLitReg imm rd =>
    obtain ⟨r, -, h⟩ := withReg_eq_refuses.1 h
    cases h
  | movRegReg rs rd u =>
    obtain ⟨r, -, h⟩ := withReg_eq_refuses.1 h
    obtain ⟨d, -, h⟩ := withReg_eq_refuses.1 h
    cases h
  | movRegMem rs addr =>
    obtain ⟨r, -, h⟩ := withReg_eq_refuses.1 h
    rcases onBus_eq_refuses.1 h with hw | ⟨t, -, h⟩
    · exact (State.memWrite_eq_refused.1 hw).1
    · cases h
  | movMemReg addr rd =>
    obtain ⟨d, -, h⟩ := withReg_eq_refuses.1 h
    rcases onBus_eq_refuses.1 h with hr | ⟨x, -, h⟩
    · exact (State.memRead_eq_refused.1 hr).1
    · cases h
  | addRegReg ra rb u =>
    obtain ⟨a, -, h⟩ := withReg_eq_refuses.1 h
    obtain ⟨b, -, h⟩ := withReg_eq_refuses.1 h
    cases h

theorem step_ne_refused {s : State} (hw : busWellFormed s.devices = true) (q : Refusal) : step s ≠ .refused q := by
  intro h
  unfold step at h
  cases hf : s.fetchDecode with
  | fault r =>
    rw [hf] at h
    cases h
  | instr i =>
    rw [hf] at h
    have hexec : (executeOne i s).finish = .refused q := (exec_eq_finish i s).symm.trans h
    have hill := illFormed_of_executeOne_refuses (Flow.finish_eq_refused.1 hexec)
    rw [hw] at hill
    cases hill

/-- Every step from a well-formed list leaves a well-formed list: the list itself (O46). -/
theorem step_keeps_busWellFormed {s t : State} (hw : busWellFormed s.devices = true) (hs : step s = .next t) :
    busWellFormed t.devices = true := by
  rw [(stepKeepsProgramDevicesAndStatus s t hs).devices]
  exact hw

/-- A property that every step keeps and under which no step is refused holds off the refusal of every run. -/
theorem run_ne_refused {M : Host.Core} {P : M.State → Prop} (keeps : ∀ s t, P s → M.step s = .next t → P t)
    (answers : ∀ s q, P s → M.step s ≠ .refused q) (q : M.Refusal) (n : Nat) : ∀ s, P s → M.run n s ≠ .refused q := by
  induction n with
  | zero =>
    intro s _ h
    cases h
  | succ n ih =>
    intro s hs
    rw [Host.Core.run]
    cases h : M.step s with
    | next t => exact ih t (keeps s t hs h)
    | fault r => exact nofun
    | refused q' => exact absurd h (answers s q' hs)

/-- Settles O58: a well-formed device list is kept by every step, and no step from one is refused. -/
theorem wellFormedBusRunsAreNeverRefused : Obligations.WellFormedBusRunsAreNeverRefused := fun s n q hw =>
  run_ne_refused (M := Sys2Proof.core) (P := fun s : State => busWellFormed s.devices = true)
    (fun _ _ => step_keeps_busWellFormed) (fun _ q hw => step_ne_refused hw q) q n s hw

end Sys2Proof.Machine
end

section
/-! SUPPORT and proofs of the encoding statements (30_encoding.md): the record and the integer form convert into each
other without loss, decoding is the table lookup of the opcode byte followed by a reading of the argument slots that the
encoder undoes, what the encoder accepts, and what the dispatch does with unused slots, bad register fields and bad
opcode bytes. -/

namespace Sys2Proof

/-! ### The record and its integer form (R62, R71) -/

/-- The or with a number shifted past every bit of `a` is a sum. -/
theorem or_shiftLeft_eq_add {a i : Nat} (h : a < 2 ^ i) (b : Nat) : a ||| b <<< i = a + 2 ^ i * b := by
  rw [Nat.or_comm, ← Nat.shiftLeft_add_eq_or_of_lt h, Nat.shiftLeft_eq, Nat.mul_comm, Nat.add_comm]

/-- Three fields of an instruction's integer form as the "Encoding" lines write them, highest first: no field reaches into
the one above it. -/
theorem shiftLeft_or_shiftLeft_or_eq_add {op i j lo : Nat} (hop : op < 2 ^ j) (hlo : op + 2 ^ j * lo < 2 ^ i) (hi : Nat) :
    hi <<< i ||| lo <<< j ||| op = op + 2 ^ j * lo + 2 ^ i * hi := by
  calc hi <<< i ||| lo <<< j ||| op
      _ = op ||| lo <<< j ||| hi <<< i := by rw [Nat.or_comm, Nat.or_comm (hi <<< i), Nat.or_assoc]
      _ = op + 2 ^ j * lo + 2 ^ i * hi := by rw [or_shiftLeft_eq_add hop, or_shiftLeft_eq_add hlo]

@[simp] theorem Record.ofU32_toU32 (x : Record) : Record.ofU32 x.toU32 = x := by
  obtain ⟨op, a0, a1, a2⟩ := x
  have hop := op.isLt; have h0 := a0.isLt; have h1 := a1.isLt; have h2 := a2.isLt
  simp only [Record.ofU32, Record.toU32_toNat, Record.mk.injEq]
  refine ⟨?_, ?_, ?_, ?_⟩ <;> (apply BitVec.eq_of_toNat_eq; rw [BitVec.toNat_ofNat]; omega)

@[simp] theorem Record.toU32_ofU32 (w : U32) : (Record.ofU32 w).toU32 = w := by
  have hw := w.isLt
  apply BitVec.eq_of_toNat_eq
  simp only [Record.toU32_toNat, Record.ofU32, BitVec.toNat_ofNat]
  omega

theorem Record.toU32_eq_iff (x : Record) (w : U32) : x.toU32 = w ↔ x = Record.ofU32 w :=
  ⟨fun h => by rw [← h, Record.ofU32_toU32], fun h => by rw [h, Record.toU32_ofU32]⟩

/-- The sum of `to_u32` is the or of R62: each byte is shifted past the ones before it. -/
theorem Record.toU32_toNat_eq_or (x : Record) :
    x.toU32.toNat = x.opcode.toNat ||| (x.arg0.toNat <<< 8) ||| (x.arg1.toNat <<< 16) ||| (x.arg2.toNat <<< 24) := by
  have hop := x.opcode.isLt; have h0 := x.arg0.isLt; have h1 := x.arg1.isLt
  rw [or_shiftLeft_eq_add hop, or_shiftLeft_eq_add (i := 16) (by omega), or_shiftLeft_eq_add (i := 24) (by omega)]
  exact x.toU32_toNat

/-- Settles O3. -/
theorem recordAndIntegerAgree : Obligations.RecordAndIntegerAgree :=
  ⟨Record.ofU32_toU32, Record.toU32_ofU32, Record.toU32_toNat_eq_or⟩

/-! ### Decoding: the opcode's table entry, then the argument slots (R64, R67, R69, R73) -/

/-- The instruction whose operands are a record's argument slots, read as the opcode `op` lays them out. -/
def Record.readAs (x : Record) : Opcode → Instr
  | .nop => .nop (unusedField x.arg0 x.arg1 x.arg2)
  | .hlt => .hlt (unusedField x.arg0 x.arg1 x.arg2)
  | .movLitReg => .movLitReg (word x.arg0 x.arg1) x.arg2
  | .movRegReg => .movRegReg x.arg0 x.arg1 x.arg2
  | .movRegMem => .movRegMem x.arg0 (word x.arg1 x.arg2)
  | .movMemReg => .movMemReg (word x.arg0 x.arg1) x.arg2
  | .addRegReg => .addRegReg x.arg0 x.arg1 x.arg2

/-- Decoding a record is the table lookup of its opcode byte and then `readAs`. -/
theorem Record.instr?_eq_map (x : Record) : x.instr? = (Opcode.ofByte? x.opcode).map x.readAs := by
  unfold Record.instr?
  cases Opcode.ofByte? x.opcode with
  | none => rfl
  | some op => cases op <;> rfl

@[simp] theorem Record.opcode_readAs (x : Record) (op : Opcode) : (x.readAs op).opcode = op := by
  cases op <;> rfl

@[simp] theorem Instr.record_opcode (i : Instr) : i.record.opcode = i.opcode.byte := by
  cases i <;> rfl

/-- The three bytes of an unused field, put together again, are the field. -/
theorem unusedField_unusedRecord (op : Opcode) (u : BitVec 24) :
    unusedField (unusedRecord op u).arg0 (unusedRecord op u).arg1 (unusedRecord op u).arg2 = u := by
  have hu := u.isLt
  apply BitVec.eq_of_toNat_eq
  simp only [unusedField_toNat, unusedRecord, BitVec.toNat_ofNat]
  omega

/-- The bytes of an unused field are the bytes it was put together from. -/
theorem unusedRecord_unusedField (op : Opcode) (a b c : Byte) :
    unusedRecord op (unusedField a b c) = ⟨op.byte, a, b, c⟩ := by
  have ha := a.isLt; have hb := b.isLt; have hc := c.isLt
  simp only [unusedRecord, unusedField_toNat, Record.mk.injEq, true_and]
  refine ⟨?_, ?_, ?_⟩ <;> (apply BitVec.eq_of_toNat_eq; rw [BitVec.toNat_ofNat]; omega)

/-- Reading the slots that an instruction's operands were placed in gives the instruction. -/
theorem Instr.readAs_record (i : Instr) : i.record.readAs i.opcode = i := by
  cases i with
  | nop u => exact congrArg Instr.nop (unusedField_unusedRecord .nop u)
  | hlt u => exact congrArg Instr.hlt (unusedField_unusedRecord .hlt u)
  | movLitReg imm rd => exact congrArg (Instr.movLitReg · rd) (word_lo_hi imm)
  | movRegReg rs rd u => rfl
  | movRegMem rs addr => exact congrArg (Instr.movRegMem rs) (word_lo_hi addr)
  | movMemReg addr rd => exact congrArg (Instr.movMemReg · rd) (word_lo_hi addr)
  | addRegReg ra rb u => rfl

/-- Placing the operands that were read from a record's slots gives the slots back, under the opcode they were read by. -/
theorem Record.record_readAs (x : Record) (op : Opcode) : (x.readAs op).record = { x with opcode := op.byte } := by
  cases op with
  | nop => exact unusedRecord_unusedField .nop x.arg0 x.arg1 x.arg2
  | hlt => exact unusedRecord_unusedField .hlt x.arg0 x.arg1 x.arg2
  | movLitReg => simp [Record.readAs, Instr.record, Instr.opcode]
  | movRegReg => rfl
  | movRegMem => simp [Record.readAs, Instr.record, Instr.opcode]
  | movMemReg => simp [Record.readAs, Instr.record, Instr.opcode]
  | addRegReg => rfl

/-- A record decodes to an instruction exactly when it is that instruction's record. -/
theorem Record.instr?_eq_some (x : Record) (i : Instr) : x.instr? = some i ↔ i.record = x := by
  rw [Record.instr?_eq_map]
  constructor
  · intro h
    obtain ⟨op, hop, rfl⟩ := Option.map_eq_some_iff.1 h
    rw [Record.record_readAs, ← (Opcode.ofByte?_eq_some _ _).1 hop]
  · rintro rfl
    rw [Instr.record_opcode, Opcode.ofByte?_byte, Option.map_some, Instr.readAs_record]

/-- The decoder reads an instruction from a word exactly when the encoder writes that word for it. -/
theorem decodeWord_eq_some (w : U32) (i : Instr) : decodeWord w = some i ↔ encode i = w := by
  rw [decodeWord, Record.instr?_eq_some, encode, Record.toU32_eq_iff]

/-- The decoder reads nothing from a word exactly when its opcode byte is above 6. -/
theorem decodeWord_eq_none (w : U32) : decodeWord w = none ↔ 6 < w.toNat % 256 := by
  rw [decodeWord, Record.instr?_eq_map, Option.map_eq_none_iff, Opcode.ofByte?_eq_none]
  simp [Record.ofU32]

theorem decodeBytes_of_decodeWord {b0 b1 b2 b3 : Byte} {i : Instr} (h : decodeWord (wordOfBytes b0 b1 b2 b3) = some i)
    (rest : List Byte) : decodeBytes (b0 :: b1 :: b2 :: b3 :: rest) = .instr i := by
  rw [decodeBytes, h]

/-- Decoding the bytes of an instruction does not depend on what follows them. -/
theorem decodeBytes_encodeBytes_append (i : Instr) (rest : List Byte) :
    decodeBytes (encodeBytes i ++ rest) = .instr i :=
  decodeBytes_of_decodeWord ((decodeWord_eq_some (encode i) i).2 rfl) rest

/-- Settles O4. -/
theorem decodeAndEncodeAgree : Obligations.DecodeAndEncodeAgree :=
  ⟨decodeWord_eq_some, decodeBytes_encodeBytes_append⟩

/-- Decoding a word keeps the opcode that the table has at the word's low byte. -/
theorem decodeWord_map_opcode (w : U32) : (decodeWord w).map Instr.opcode = handlerTable[w.toNat % 256]? := by
  have hop : (Record.ofU32 w).opcode.toNat = w.toNat % 256 := by simp [Record.ofU32]
  have hread : Instr.opcode ∘ (Record.ofU32 w).readAs = id := funext (Record.opcode_readAs _)
  rw [decodeWord, Record.instr?_eq_map, Option.map_map, hread, Option.map_id, id, Opcode.ofByte?, hop]

/-- Settles O6: the table of the dispatch is the list of seven. -/
theorem opcodeByteSelectsTheInstruction : Obligations.OpcodeByteSelectsTheInstruction := decodeWord_map_opcode

/-! ### The integer form, operand by operand (R62, R64, R67) -/

theorem Record.toU32_toNat_bbb (op a b : Byte) :
    (Record.toU32 ⟨op, a, b, 0⟩).toNat = (b.toNat <<< 16) ||| (a.toNat <<< 8) ||| op.toNat := by
  have hop := op.isLt; have ha := a.isLt
  rw [shiftLeft_or_shiftLeft_or_eq_add hop (by omega)]
  simp

theorem Record.toU32_toNat_bw (op b : Byte) (w : Word) :
    (Record.toU32 ⟨op, b, lo w, hi w⟩).toNat = (w.toNat <<< 16) ||| (b.toNat <<< 8) ||| op.toNat := by
  have hop := op.isLt; have hb := b.isLt
  rw [shiftLeft_or_shiftLeft_or_eq_add hop (by omega)]
  simp only [Record.toU32_toNat, lo_toNat, hi_toNat]
  omega

theorem Record.toU32_toNat_wb (op : Byte) (w : Word) (b : Byte) :
    (Record.toU32 ⟨op, lo w, hi w, b⟩).toNat = (b.toNat <<< 24) ||| (w.toNat <<< 8) ||| op.toNat := by
  have hop := op.isLt; have hw := w.isLt
  rw [shiftLeft_or_shiftLeft_or_eq_add hop (by omega)]
  simp only [Record.toU32_toNat, lo_toNat, hi_toNat]
  omega

/-- Settles O5, by the shape of each opcode. -/
theorem encodingPlacesEveryOperand : Obligations.EncodingPlacesEveryOperand :=
  ⟨by decide, by decide, Record.toU32_toNat_wb Opcode.movLitReg.byte, Record.toU32_toNat_bbb Opcode.movRegReg.byte,
    Record.toU32_toNat_bw Opcode.movRegMem.byte, Record.toU32_toNat_wb Opcode.movMemReg.byte,
    Record.toU32_toNat_bbb Opcode.addRegReg.byte⟩

/-! ### The encoder's calls (R63, R66, R70) -/

/-- The operand byte of a number that the encoder takes for a register names a register. -/
theorem ofNat_toNat_le_of_encodableReg {n : Nat} (h : encodableReg n = true) : (BitVec.ofNat 8 n).toNat ≤ 15 := by
  have hn : n ≤ 15 := of_decide_eq_true h
  rw [BitVec.toNat_ofNat]
  omega

/-- An instruction whose register fields are numbers the encoder takes, and whose unused slots are zero, is well formed. -/
theorem Instr.wellFormed_of_encodableReg {i : Instr} {numbers : List Nat} (hok : ∀ n ∈ numbers, encodableReg n = true)
    (hfields : i.regFields = numbers.map (BitVec.ofNat 8)) (hunused : i.clearUnused = i) : i.wellFormed = true := by
  have hregs : ∀ b ∈ i.regFields, decide (b.toNat ≤ 15) = true := by
    rw [hfields, List.forall_mem_map]
    exact fun n hn => decide_eq_true (ofNat_toNat_le_of_encodableReg (hok n hn))
  exact Bool.and_eq_true_iff.2 ⟨List.all_eq_true.2 hregs, decide_eq_true hunused⟩

theorem encodableAddress_toNat (addr : Word) : encodableAddress addr.toNat = true := by
  have := addr.isLt
  simp only [encodableAddress, Bool.and_eq_true, decide_eq_true_eq]
  omega

@[simp] theorem bits16_natCast_toNat (v : Word) : bits16 v.toNat = v := by
  simp [bits16]

/-- What the encoder answers has its form's shape, is well formed, and is of the opcode asked for. -/
theorem encodeCall_eq_some {op : Opcode} {form : CallForm} {i : Instr} (h : encodeCall op form = some i) :
    form.shape = op.shape ∧ i.wellFormed = true ∧ i.opcode = op := by
  unfold encodeCall at h
  split at h
  case h_1 | h_2 =>
    cases h
    decide
  case h_3 imm rd =>
    obtain ⟨hok, hi⟩ := Option.ite_none_right_eq_some.1 h
    cases hi
    have hregs : ∀ n ∈ [rd], encodableReg n = true := by simpa using (Bool.and_eq_true_iff.1 hok).2
    exact ⟨rfl, Instr.wellFormed_of_encodableReg hregs rfl rfl, rfl⟩
  case h_4 rs rd =>
    obtain ⟨hok, hi⟩ := Option.ite_none_right_eq_some.1 h
    cases hi
    have hregs : ∀ n ∈ [rs, rd], encodableReg n = true := by simpa using hok
    exact ⟨rfl, Instr.wellFormed_of_encodableReg hregs rfl rfl, rfl⟩
  case h_5 rs addr =>
    obtain ⟨hok, hi⟩ := Option.ite_none_right_eq_some.1 h
    cases hi
    have hregs : ∀ n ∈ [rs], encodableReg n = true := by simpa using (Bool.and_eq_true_iff.1 hok).1
    exact ⟨rfl, Instr.wellFormed_of_encodableReg hregs rfl rfl, rfl⟩
  case h_6 addr rd =>
    obtain ⟨hok, hi⟩ := Option.ite_none_right_eq_some.1 h
    cases hi
    have hregs : ∀ n ∈ [rd], encodableReg n = true := by simpa using (Bool.and_eq_true_iff.1 hok).2
    exact ⟨rfl, Instr.wellFormed_of_encodableReg hregs rfl rfl, rfl⟩
  case h_7 ra rb =>
    obtain ⟨hok, hi⟩ := Option.ite_none_right_eq_some.1 h
    cases hi
    have hregs : ∀ n ∈ [ra, rb], encodableReg n = true := by simpa using hok
    exact ⟨rfl, Instr.wellFormed_of_encodableReg hregs rfl rfl, rfl⟩
  case h_8 => cases h

theorem encodeCall_movLitReg (imm : Int) (rd : Nat) : encodeCall .movLitReg (.wb imm rd) =
    if (-32768 ≤ imm ∧ imm ≤ 65535) ∧ rd ≤ 15 then some (.movLitReg (bits16 imm) (BitVec.ofNat 8 rd)) else none := by
  simp [encodeCall, encodableLiteral, encodableReg]

theorem encodeCall_movRegReg (rs rd : Nat) : encodeCall .movRegReg (.bbb rs rd) =
    if rs ≤ 15 ∧ rd ≤ 15 then some (.movRegReg (BitVec.ofNat 8 rs) (BitVec.ofNat 8 rd) 0) else none := by
  simp [encodeCall, encodableReg]

theorem encodeCall_addRegReg (ra rb : Nat) : encodeCall .addRegReg (.bbb ra rb) =
    if ra ≤ 15 ∧ rb ≤ 15 then some (.addRegReg (BitVec.ofNat 8 ra) (BitVec.ofNat 8 rb) 0) else none := by
  simp [encodeCall, encodableReg]

theorem encodeCall_movRegMem (rs : Nat) (addr : Word) : encodeCall .movRegMem (.bw rs addr.toNat) =
    if rs ≤ 15 then some (.movRegMem (BitVec.ofNat 8 rs) addr) else none := by
  simp [encodeCall, encodableReg, encodableAddress_toNat]

theorem encodeCall_movMemReg (addr : Word) (rd : Nat) : encodeCall .movMemReg (.wb addr.toNat rd) =
    if rd ≤ 15 then some (.movMemReg addr (BitVec.ofNat 8 rd)) else none := by
  simp [encodeCall, encodableReg, encodableAddress_toNat]

/-- Settles O8: a call of the wrong shape is refused, for what the encoder answers has the shape of the call's form. -/
theorem encoderRefusesBadCalls : Obligations.EncoderRefusesBadCalls := by
  refine ⟨fun op form hshape => ?_, fun op form i h => (encodeCall_eq_some h).2, rfl, rfl, encodeCall_movLitReg,
    encodeCall_movRegReg, encodeCall_addRegReg, encodeCall_movRegMem, fun rd addr => encodeCall_movMemReg addr rd⟩
  exact Option.eq_none_iff_forall_ne_some.2 fun i h => hshape (encodeCall_eq_some h).1

end Sys2Proof

namespace Sys2Proof.Machine

/-! ### Unused slots and register fields in the dispatch (R72, R73) -/

/-- An operand byte of 0 to 15 is the byte of a register. -/
theorem exists_eq_byte_of_le {b : Byte} (h : b.toNat ≤ 15) : ∃ r, b = Reg.byte r := by
  cases hr : Reg.ofByte? b with
  | some r => exact ⟨r, (Reg.ofByte?_eq_some b r).1 hr⟩
  | none => exact absurd ((Reg.ofByte?_eq_none b).1 hr) (Nat.not_lt.2 h)

/-- Every register field of an instruction with registers in range is the byte of a register. -/
theorem exists_eq_byte_of_regsOk {i : Instr} (h : i.regsOk = true) {b : Byte} (hb : b ∈ i.regFields) :
    ∃ r, b = Reg.byte r :=
  exists_eq_byte_of_le (of_decide_eq_true (List.all_eq_true.1 h b hb))

/-- The outcome of `mov_reg_reg` once its register operands are checked. -/
theorem exec_movRegReg_byte (r d : Reg) (u : Byte) (s : State) :
    exec (.movRegReg r.byte d.byte u) s = .next (s.setReg d (s.getReg r)).advance := by
  rw [exec_eq_finish, executeOne, flowMovRegReg, withReg_byte, withReg_byte, Flow.finish]

/-- The outcome of `add_reg_reg` once its register operands are checked. -/
theorem exec_addRegReg_byte (a b : Reg) (u : Byte) (s : State) :
    exec (.addRegReg a.byte b.byte u) s = .next (s.setReg .ac (addWrap (s.getReg a) (s.getReg b))).advance := by
  rw [exec_eq_finish, executeOne, flowAddRegReg, withReg_byte, withReg_byte, Flow.finish]

/-- Settles O9: `nop` and `hlt` do not look at their slots, and of the two-register instructions only the operand checks
do, which pass. -/
theorem unusedSlotsAreIgnored : Obligations.UnusedSlotsAreIgnored := by
  intro i s hregs
  cases i with
  | nop u => rfl
  | hlt u => rfl
  | movLitReg imm rd => rfl
  | movRegReg rs rd u =>
    obtain ⟨r, rfl⟩ := exists_eq_byte_of_regsOk hregs (b := rs) (by simp [Instr.regFields])
    obtain ⟨d, rfl⟩ := exists_eq_byte_of_regsOk hregs (b := rd) (by simp [Instr.regFields])
    rw [Instr.clearUnused, exec_movRegReg_byte, exec_movRegReg_byte]
  | movRegMem rs addr => rfl
  | movMemReg addr rd => rfl
  | addRegReg ra rb u =>
    obtain ⟨a, rfl⟩ := exists_eq_byte_of_regsOk hregs (b := ra) (by simp [Instr.regFields])
    obtain ⟨b, rfl⟩ := exists_eq_byte_of_regsOk hregs (b := rb) (by simp [Instr.regFields])
    rw [Instr.clearUnused, exec_addRegReg_byte, exec_addRegReg_byte]

/-- Of two register checks in a row, it does not matter which one fails. -/
theorem withReg_withReg_bad {i : Instr} {s : State} {a b : Byte} {k : Reg → Reg → Flow}
    (h : 15 < a.toNat ∨ 15 < b.toNat) :
    withReg i s a (fun r => withReg i s b (k r)) = .faults (.badRegister (encode i) s.pc) := by
  rcases withReg_cases i s a (fun r => withReg i s b (k r)) with ⟨r, rfl, hr⟩ | ⟨-, hr⟩
  · have ha : r.byte.toNat ≤ 15 := by cases r <;> decide
    rw [hr, withReg_bad (h.resolve_left (Nat.not_lt.2 ha))]
  · exact hr

/-- A register field of 16 or more ends `execute_one` in `DecodeFault(BadRegister)`, before any bus access. -/
theorem executeOne_of_badRegister {i : Instr} {b : Byte} (hb : b ∈ i.regFields) (h : 15 < b.toNat) (s : State) :
    executeOne i s = .faults (.badRegister (encode i) s.pc) := by
  cases i with
  | nop u => cases hb
  | hlt u => cases hb
  | movLitReg imm rd =>
    obtain rfl := List.mem_singleton.1 hb
    exact withReg_bad h
  | movRegReg rs rd u =>
    obtain rfl | rfl := List.mem_pair.1 hb
    · exact withReg_withReg_bad (.inl h)
    · exact withReg_withReg_bad (.inr h)
  | movRegMem rs addr =>
    obtain rfl := List.mem_singleton.1 hb
    exact withReg_bad h
  | movMemReg addr rd =>
    obtain rfl := List.mem_singleton.1 hb
    exact withReg_bad h
  | addRegReg ra rb u =>
    obtain rfl | rfl := List.mem_pair.1 hb
    · exact withReg_withReg_bad (.inl h)
    · exact withReg_withReg_bad (.inr h)

/-- Settles O36. -/
theorem badRegisterFieldFaults : Obligations.BadRegisterFieldFaults := by
  rintro i s ⟨b, hb, h⟩
  rw [exec_eq_finish, executeOne_of_badRegister hb h, Flow.finish]

/-! ### Fetching a word (40_execution_engine.md R77, R78) -/

theorem step_of_decodeWord_eq_none {s : State} {w : U32} (hf : s.fetch = some w) (hw : decodeWord w = none) :
    step s = .fault (.badOpcode w s.pc) := by
  have hfd : s.fetchDecode = .fault (.badOpcode w s.pc) := by
    simp only [State.fetchDecode, hf, hw]
  rw [step, hfd]

/-- Settles O40: an opcode byte above 6 has no entry in the handler table. -/
theorem badOpcodeFaults : Obligations.BadOpcodeFaults := fun _ w hf h =>
  step_of_decodeWord_eq_none hf ((decodeWord_eq_none w).2 h)

/-- At a multiple of 4, fetch reads the four bytes that the program buffer holds from `pc` on. -/
theorem State.fetch_of_drop {s : State} {b0 b1 b2 b3 : Byte} {rest : List Byte} (hpc : s.pc.toNat % 4 = 0)
    (h : s.program.drop s.pc.toNat = b0 :: b1 :: b2 :: b3 :: rest) : s.fetch = some (wordOfBytes b0 b1 b2 b3) := by
  have hlen : s.program.length - s.pc.toNat = rest.length + 4 := by
    rw [← List.length_drop, h]
    rfl
  have hget (k : Nat) : s.program.getD (s.pc.toNat + k) 0 = (b0 :: b1 :: b2 :: b3 :: rest).getD k 0 := by
    rw [← h, List.getD_eq_getElem?_getD, List.getD_eq_getElem?_getD, List.getElem?_drop]
  unfold State.fetch
  rw [if_neg (not_not.2 hpc), if_neg (by omega), hget 1, hget 2, hget 3]
  exact congrArg (fun b => some (wordOfBytes b b1 b2 b3)) (hget 0)

/-- The bytes that `placeWord` puts before the word fill the buffer up to the word's offset. -/
theorem placeWord_drop (program : List Byte) (off : Nat) (w : U32) :
    ∃ rest, (placeWord program off w).drop off = (Record.ofU32 w).bytes ++ rest := by
  have hlen : (program.take off ++ List.replicate (off - program.length) 0).length = off := by
    rw [List.length_append, List.length_take, List.length_replicate]
    omega
  unfold placeWord
  rw [List.append_assoc (_ ++ _)]
  exact ⟨_, List.drop_left' hlen⟩

theorem withFetchWord_pc_toNat (s : State) (nbits w : Nat) :
    (s.withFetchWord nbits w).pc.toNat = fetchOffset s.pc := by
  have hpc : (s.withFetchWord nbits w).pc = BitVec.ofNat 16 (fetchOffset s.pc) := State.getReg_setReg_same s .pc _
  have := s.pc.isLt
  rw [hpc, BitVec.toNat_ofNat, fetchOffset]
  omega

/-- Settles O51. -/
theorem placedWordIsFetched : Obligations.PlacedWordIsFetched := by
  intro s nbits w
  obtain ⟨rest, hrest⟩ := placeWord_drop s.program (fetchOffset s.pc) (tableWord nbits w)
  have hpc := withFetchWord_pc_toNat s nbits w
  rw [State.fetch_of_drop (by rw [hpc]; exact Nat.mul_mod_left _ _) (by rw [hpc]; exact hrest)]
  exact congrArg some (Record.toU32_ofU32 (tableWord nbits w))

end Sys2Proof.Machine
end

section
/-! SUPPORT and proofs of the execution engine's statements (40_execution_engine.md): what fetch reads, what a step and
`step()` do with the word fetched, the halt, the advance of `pc`, `execute()`, `load_program`, and the invariant under
the host's operations. -/

namespace Sys2Proof

theorem Instr.opcode_eq_hlt {i : Instr} : i.opcode = .hlt ↔ ∃ u, i = .hlt u := by
  cases i <;> simp [Instr.opcode]

/-- The low byte of the integer form is the opcode byte (30_encoding.md R62). -/
theorem Record.toU32_toNat_mod (x : Record) : x.toU32.toNat % 256 = x.opcode.toNat := by
  have hop := x.opcode.isLt
  rw [Record.toU32_toNat]
  omega

/-- A word whose opcode byte is 0x01 is a `hlt`, whatever its other bytes (30_encoding.md R69, R73). -/
theorem exists_decodeWord_eq_hlt {w : U32} (h : w.toNat % 256 = 1) : ∃ u, decodeWord w = some (.hlt u) := by
  have hop : (decodeWord w).map Instr.opcode = some .hlt := by
    rw [decodeWord_map_opcode, h]
    rfl
  obtain ⟨i, hi, hhlt⟩ := Option.map_eq_some_iff.1 hop
  obtain ⟨u, rfl⟩ := Instr.opcode_eq_hlt.1 hhlt
  exact ⟨u, hi⟩

end Sys2Proof

namespace Sys2Proof.Machine

/-! ### Fetch (R77) -/

/-- Fetch faults exactly on the two conditions of R77. -/
theorem State.fetch_eq_none {s : State} :
    s.fetch = none ↔ s.pc.toNat % 4 ≠ 0 ∨ s.program.length / 4 ≤ s.pc.toNat / 4 := by
  unfold State.fetch
  split
  case isTrue h => exact iff_of_true rfl (.inl h)
  case isFalse h =>
    split
    case isTrue hpast => exact iff_of_true rfl (.inr hpast)
    case isFalse hin => exact iff_of_false nofun (not_or.2 ⟨h, hin⟩)

/-- The opcode byte of the word fetched is the program's byte at `pc`. -/
theorem State.opcodeByte_of_fetch {s : State} {w : U32} (h : s.fetch = some w) :
    w.toNat % 256 = (s.program.getD s.pc.toNat 0).toNat := by
  unfold State.fetch at h
  split at h
  · cases h
  · split at h
    · cases h
    · cases h
      exact Record.toU32_toNat_mod _

/-- Where an instruction's bytes stand at `pc`, fetch reads the instruction's word. -/
theorem State.fetch_of_encodeBytes {s : State} {i : Instr} {rest : List Byte} (hpc : s.pc.toNat % 4 = 0)
    (h : s.program.drop s.pc.toNat = encodeBytes i ++ rest) : s.fetch = some (encode i) :=
  State.fetch_of_drop hpc h

/-! ### One step, by what fetch and decode give (R78, R80) -/

theorem State.fetchDecode_of_decodeWord {s : State} {w : U32} {i : Instr} (hf : s.fetch = some w)
    (hd : decodeWord w = some i) : s.fetchDecode = .instr i := by
  simp only [State.fetchDecode, hf, hd]

theorem step_of_fetch_eq_none {s : State} (hf : s.fetch = none) : step s = .fault (.fetchFault s.pc) := by
  have hfd : s.fetchDecode = .fault (.fetchFault s.pc) := by
    simp only [State.fetchDecode, hf]
  rw [step, hfd]

theorem step_of_decodeWord {s : State} {w : U32} {i : Instr} (hf : s.fetch = some w) (hd : decodeWord w = some i) :
    step s = exec i s := by
  rw [step, State.fetchDecode_of_decodeWord hf hd]

theorem hostStep_of_fetch_eq_none {s : State} (hf : s.fetch = none) :
    s.hostStep = ⟨none, .faulted (.fetchFault s.pc), s⟩ := by
  simp only [State.hostStep, hf, State.afterFault]

theorem hostStep_of_decodeWord_eq_none {s : State} {w : U32} (hf : s.fetch = some w) (hd : decodeWord w = none) :
    s.hostStep = ⟨some w, .faulted (.badOpcode w s.pc), s⟩ := by
  simp only [State.hostStep, hf, hd, State.afterFault]

theorem hostStep_of_decodeWord {s : State} {w : U32} {i : Instr} (hf : s.fetch = some w) (hd : decodeWord w = some i) :
    s.hostStep = (executeOne i s).stepReturn w s := by
  simp only [State.hostStep, hf, hd]

/-- Settles O39: the two conditions, and the record's integer form as R62 writes it. -/
theorem fetchReadsTheProgramBuffer : Obligations.FetchReadsTheProgramBuffer := fun _ =>
  ⟨fun h => ⟨State.fetch_eq_none.2 h, step_of_fetch_eq_none (State.fetch_eq_none.2 h)⟩,
    fun b0 b1 b2 b3 _ hpc hdrop =>
      ⟨wordOfBytes b0 b1 b2 b3, State.fetch_of_drop hpc hdrop, Record.toU32_toNat_eq_or ⟨b0, b1, b2, b3⟩⟩⟩

/-- Settles O44: the word of the instruction's bytes decodes to the instruction. -/
theorem stepRunsTheInstructionAtPc : Obligations.StepRunsTheInstructionAtPc := fun _ i _ hpc hdrop =>
  step_of_decodeWord (State.fetch_of_encodeBytes hpc hdrop) ((decodeWord_eq_some (encode i) i).2 rfl)

/-! ### The machine's step and the host's `step()` (R80, R81) -/

/-- The machine's outcome that a return of `step()` stands for: `Continue` and `Halt` have a next state (log entry 7). -/
def StepReturn.toOutcome (x : StepReturn) : Host.Outcome State Fault Refusal :=
  match x.outcome with
  | .continues => .next x.after
  | .halted => .next x.after
  | .faulted r => .fault r
  | .refused r => .refused r

/-- The loop makes the same of a handler's outcome in both renderings. -/
theorem Flow.toOutcome_stepReturn (f : Flow) (w : U32) (s : State) : (f.stepReturn w s).toOutcome = f.finish := by
  cases f <;> rfl

theorem step_eq_toOutcome_hostStep (s : State) : step s = s.hostStep.toOutcome := by
  cases hf : s.fetch with
  | none =>
    rw [step_of_fetch_eq_none hf, hostStep_of_fetch_eq_none hf]
    rfl
  | some w =>
    cases hd : decodeWord w with
    | none =>
      rw [step_of_decodeWord_eq_none hf hd, hostStep_of_decodeWord_eq_none hf hd]
      rfl
    | some i => rw [step_of_decodeWord hf hd, hostStep_of_decodeWord hf hd, Flow.toOutcome_stepReturn, exec_eq_finish]

/-- Settles O47. -/
theorem hostStepAndCoreStepAgree : Obligations.HostStepAndCoreStepAgree := step_eq_toOutcome_hostStep

/-! ### Halt (R84) -/

/-- A machine whose step answers the state it started in stays there, however long it runs. -/
theorem run_of_step_eq_self {M : Host.Core} {s : M.State} (h : M.step s = .next s) (n : Nat) : M.run n s = .next s := by
  induction n with
  | zero => rfl
  | succ n ih => rw [Host.Core.run, h]; exact ih

theorem step_of_hlt {s : State} {w : U32} {u : BitVec 24} (hf : s.fetch = some w) (hd : decodeWord w = some (.hlt u)) :
    step s = .next s := step_of_decodeWord hf hd

theorem hostStep_of_hlt {s : State} {w : U32} {u : BitVec 24} (hf : s.fetch = some w)
    (hd : decodeWord w = some (.hlt u)) : s.hostStep = ⟨some w, .halted, s⟩ := hostStep_of_decodeWord hf hd

theorem halted_of_hlt {s : State} {w : U32} {u : BitVec 24} (hf : s.fetch = some w)
    (hd : decodeWord w = some (.hlt u)) : s.halted = true := by
  rw [State.halted, State.fetchDecode_of_decodeWord hf hd]

/-- Settles O43: the step at a `hlt` answers its own state, and so does every run. -/
theorem haltIsIdempotent : Obligations.HaltIsIdempotent := fun _ _ _ hf hd =>
  have hstep := step_of_hlt hf hd
  ⟨hostStep_of_hlt hf hd, hstep, run_of_step_eq_self (M := Sys2Proof.core) hstep⟩

/-! ### The advance of `pc` (R81, R82) -/

theorem isHlt_iff {i : Instr} : isHlt i = true ↔ ∃ u, i = .hlt u := by
  rw [isHlt, decide_eq_true_iff, Instr.opcode_eq_hlt]

theorem memRead_regs {s : State} {a : Word} {x : Word × State} (h : s.memRead a = .ok x) : x.2.regs = s.regs := by
  obtain ⟨d, -, -, rfl⟩ := State.memRead_eq_ok.1 h
  exact (s.deviceRead16_frame d (d.localAddr a)).1

theorem memWrite_regs {s t : State} {a v : Word} (h : s.memWrite a v = .ok t) : t.regs = s.regs := by
  obtain ⟨d, -, -, rfl⟩ := State.memWrite_eq_ok.1 h
  exact (s.deviceWrite16_frame d (d.localAddr a) v).1

/-- A write to a destination whose operand byte is not that of `pc` leaves `pc`. -/
theorem State.getReg_pc_setReg {r : Reg} (h : r.byte ≠ Reg.pc.byte) (s : State) (v : Word) :
    (s.setReg r v).getReg .pc = s.getReg .pc :=
  State.getReg_setReg_other s v fun hr => h (congrArg Reg.byte hr.symm)

/-- No handler changes `pc` but by a destination that names it: the advance is the loop's. -/
theorem executeOne_keeps_pc {i : Instr} {s t : State} (h : executeOne i s = .continues t) (hw : writesPc i = false) :
    t.getReg .pc = s.getReg .pc := by
  cases i with
  | nop u => cases h; rfl
  | hlt u => cases h
  | movLitReg imm rd =>
    obtain ⟨d, rfl, hd⟩ := withReg_eq_continues.1 h
    cases hd
    exact State.getReg_pc_setReg (of_decide_eq_false hw) s _
  | movRegReg rs rd u =>
    obtain ⟨r, -, h⟩ := withReg_eq_continues.1 h
    obtain ⟨d, rfl, hd⟩ := withReg_eq_continues.1 h
    cases hd
    exact State.getReg_pc_setReg (of_decide_eq_false hw) s _
  | movRegMem rs addr =>
    obtain ⟨r, -, h⟩ := withReg_eq_continues.1 h
    obtain ⟨t', hmem, h⟩ := onBus_eq_continues.1 h
    cases h
    exact State.getReg_congr (memWrite_regs hmem) .pc
  | movMemReg addr rd =>
    obtain ⟨d, rfl, hd⟩ := withReg_eq_continues.1 h
    obtain ⟨x, hmem, hx⟩ := onBus_eq_continues.1 hd
    cases hx
    rw [State.getReg_pc_setReg (of_decide_eq_false hw)]
    exact State.getReg_congr (memRead_regs hmem) .pc
  | addRegReg ra rb u =>
    obtain ⟨a, -, h⟩ := withReg_eq_continues.1 h
    obtain ⟨b, -, h⟩ := withReg_eq_continues.1 h
    cases h
    exact State.getReg_setReg_other s _ (by decide)

theorem exec_pc_of_not_writesPc {i : Instr} {s t : State} (h : exec i s = .next t) (hhlt : isHlt i = false)
    (hw : writesPc i = false) : t.getReg .pc = s.getReg .pc + 4 := by
  rw [exec_eq_finish] at h
  rcases Flow.finish_eq_next.1 h with ⟨t', hc, rfl⟩ | hh
  · rw [State.advance_pc, executeOne_keeps_pc hc hw]
  · exact absurd (executeOne_halts_cases hh).1 (of_decide_eq_false hhlt)

/-- Settles O45: the handler leaves `pc` and the loop advances it, but after a `hlt`, which answers its own state. -/
theorem pcAdvancesByFourUnlessWritten : Obligations.PcAdvancesByFourUnlessWritten := by
  intro i s t h
  refine ⟨fun hhlt hw => ?_, fun hhlt => ?_⟩
  · rw [exec_pc_of_not_writesPc h hhlt hw, BitVec.toNat_add]
    rfl
  · obtain ⟨u, rfl⟩ := isHlt_iff.1 hhlt
    cases h
    rfl

/-! ### `execute()` (R86) -/

theorem executeFor_succ_of_stops {s : State} (h : s.hostStep.outcome ≠ .continues) (n : Nat) :
    s.executeFor (n + 1) = some s.hostStep := if_neg h

theorem executeFor_succ_of_continues {s : State} (h : s.hostStep.outcome = .continues) (n : Nat) :
    s.executeFor (n + 1) = s.hostStep.after.executeFor n := if_pos h

theorem Executes.exists_executeFor {s : State} {r : StepReturn} (h : Executes s r) : ∃ n, s.executeFor n = some r := by
  induction h with
  | stops h => exact ⟨1, executeFor_succ_of_stops h 0⟩
  | goesOn h _ ih =>
    obtain ⟨n, hn⟩ := ih
    exact ⟨n + 1, (executeFor_succ_of_continues h n).trans hn⟩

theorem executes_of_executeFor {n : Nat} {r : StepReturn} : ∀ {s : State}, s.executeFor n = some r → Executes s r := by
  induction n with
  | zero => exact nofun
  | succ n ih =>
    intro s hn
    by_cases h : s.hostStep.outcome = .continues
    · rw [executeFor_succ_of_continues h] at hn
      exact .goesOn h (ih hn)
    · rw [executeFor_succ_of_stops h] at hn
      cases hn
      exact .stops h

theorem Executes.unique {s : State} {r r' : StepReturn} (h : Executes s r) (h' : Executes s r') : r = r' := by
  induction h with
  | stops hstop =>
    cases h' with
    | stops => rfl
    | goesOn hgo => exact absurd hgo hstop
  | goesOn hgo _ ih =>
    cases h' with
    | stops hstop => exact absurd hgo hstop
    | goesOn _ rest => exact ih rest

theorem Executes.outcome_ne_continues {s : State} {r : StepReturn} (h : Executes s r) : r.outcome ≠ .continues := by
  induction h with
  | stops h => exact h
  | goesOn _ _ ih => exact ih

/-- Settles O48, by inductions on the run of `execute()` and on the bound. -/
theorem executeIsRepeatedStep : Obligations.ExecuteIsRepeatedStep :=
  ⟨fun _ _ => ⟨Executes.exists_executeFor, fun ⟨_, h⟩ => executes_of_executeFor h⟩, fun _ _ _ => Executes.unique,
    fun _ _ => Executes.outcome_ne_continues⟩

/-! ### `load_program` (R89) -/

/-- The check reads a zero byte where there is none, which is not the opcode byte of `hlt`. -/
theorem programAccepted_iff (bytes : List Byte) : programAccepted bytes = true ↔
    bytes.length ≠ 0 ∧ bytes.length % 4 = 0 ∧ bytes.length ≤ 65536 ∧ bytes[bytes.length - 4]? = some 0x01 := by
  have hlast : bytes.getD (bytes.length - 4) 0 = 0x01 ↔ bytes[bytes.length - 4]? = some 0x01 := by
    rw [List.getD_eq_getElem?_getD, Option.getD_eq_iff]
    exact or_iff_left fun h => absurd h.2 (by decide)
  simp only [programAccepted, Bool.and_eq_true, decide_eq_true_eq, hlast, and_assoc]

theorem State.loadProgram_eq_ok {s t : State} {addr : Word} {bytes : List Byte} :
    s.loadProgram addr bytes = .ok t ↔ programAccepted bytes = true ∧ t = { s with program := bytes } := by
  unfold State.loadProgram
  cases programAccepted bytes <;> simp [eq_comm]

/-- Settles O49. -/
theorem loadProgramChecksAndInstalls : Obligations.LoadProgramChecksAndInstalls := fun _ _ bytes =>
  ⟨fun h => if_pos ((programAccepted_iff bytes).2 h), fun h => if_neg (mt (programAccepted_iff bytes).1 h)⟩

theorem fetch_ne_none_of_programAccepted {s : State} (h : programAccepted s.program = true)
    (hpc : s.pc.toNat % 4 = 0) (hin : s.pc.toNat < s.program.length) : s.fetch ≠ none := by
  obtain ⟨-, hmul, -, -⟩ := (programAccepted_iff _).1 h
  rw [Ne, State.fetch_eq_none]
  omega

theorem fetch_hlt_of_programAccepted {s : State} (h : programAccepted s.program = true)
    (hpc : s.pc.toNat = s.program.length - 4) : ∃ w u, s.fetch = some w ∧ decodeWord w = some (.hlt u) := by
  obtain ⟨hne, hmul, -, hlast⟩ := (programAccepted_iff _).1 h
  have hfetch : s.fetch ≠ none := fetch_ne_none_of_programAccepted h (by omega) (by omega)
  obtain ⟨w, hw⟩ := Option.ne_none_iff_exists'.1 hfetch
  have hbyte : w.toNat % 256 = 1 := by
    rw [State.opcodeByte_of_fetch hw, hpc, List.getD_eq_getElem?_getD, hlast]
    rfl
  obtain ⟨u, hu⟩ := exists_decodeWord_eq_hlt hbyte
  exact ⟨w, u, hw, hu⟩

/-- Settles O50: the check of R89 puts a `hlt` at the last instruction, and the load leaves `pc`. -/
theorem loadedProgramEndsInHalt : Obligations.LoadedProgramEndsInHalt := by
  intro s t addr bytes hload
  obtain ⟨haccepted, rfl⟩ := State.loadProgram_eq_ok.1 hload
  have hok : programAccepted ({ s with program := bytes } : State).program = true := haccepted
  refine ⟨fetch_ne_none_of_programAccepted hok, fun hpc => ?_⟩
  obtain ⟨w, u, hw, hu⟩ := fetch_hlt_of_programAccepted hok hpc
  exact ⟨congrArg StepReturn.outcome (hostStep_of_hlt hw hu), halted_of_hlt hw hu, step_of_hlt hw hu⟩

/-! ### The invariant under the host's operations -/

theorem Inv.hostReset {s : State} (h : Inv s) : Inv s.hostReset := ⟨h.ram, h.devices, h.program, rfl⟩

theorem Inv.loadProgram {s t : State} (h : Inv s) {addr : Word} {bytes : List Byte}
    (ht : s.loadProgram addr bytes = .ok t) : Inv t := by
  obtain ⟨hok, rfl⟩ := State.loadProgram_eq_ok.1 ht
  exact ⟨h.ram, h.devices, Bool.or_eq_true_iff.2 (.inr hok), h.status⟩

/-- What a device's byte read leaves: everything but the added devices' requests as it was. -/
theorem State.deviceRead8_frame (s : State) (d : Device) (l : Word) :
    (s.deviceRead8 d l).2.ram = s.ram ∧ FixedSame s (s.deviceRead8 d l).2 := by
  cases h : d.kind with
  | bankedRam => rw [State.deviceRead8_ram h]; exact ⟨rfl, .refl s⟩
  | other => rw [State.deviceRead8_added h]; exact ⟨rfl, .refl s⟩

theorem State.deviceWrite8_fixedSame (s : State) (d : Device) (l : Word) (b : Byte) :
    FixedSame s (s.deviceWrite8 d l b) := by
  cases h : d.kind with
  | bankedRam => rw [State.deviceWrite8_ram h]; exact .refl s
  | other => rw [State.deviceWrite8_added h]; exact .refl s

theorem Inv.read8 {s : State} (h : Inv s) {a : Word} {x : Byte × State} (hx : s.read8 a = .ok x) : Inv x.2 := by
  obtain ⟨d, -, -, rfl⟩ := State.read8_eq_ok.1 hx
  obtain ⟨hram, hf⟩ := s.deviceRead8_frame d (d.localAddr a)
  exact h.of_fixedSame (hram ▸ h.ram) hf

theorem Inv.write8 {s t : State} (h : Inv s) {a : Word} {b : Byte} (ht : s.write8 a b = .ok t) : Inv t := by
  obtain ⟨d, -, -, rfl⟩ := State.write8_eq_ok.1 ht
  exact h.of_fixedSame (State.deviceWrite8_ram_wf h.ram d _ b) (s.deviceWrite8_fixedSame d _ b)

/-- Settles O57: one lemma per operation of the host. -/
theorem invariantKeptByTheHost : Obligations.InvariantKeptByTheHost := fun _ h =>
  ⟨h.hostReset, fun _ _ _ => h.loadProgram, fun _ _ _ => h.read8, fun _ _ _ => h.memRead, fun _ _ _ => h.write8,
    fun _ _ _ => h.memWrite⟩

end Sys2Proof.Machine
end

section
/-! SUPPORT and proofs of the control statements (41_control.md) and of the words that the spec writes out
(95_test_vectors.md): the outcome of `nop` and of `hlt`, what the loop's advance leaves as it was, and the example words as
the encoder's words of their instructions. -/

namespace Sys2Proof

/-- Settles O7: each word is the one the encoder writes for its instruction, and 0xFF is no opcode byte. -/
theorem exampleWordsDecode : Obligations.ExampleWordsDecode := by
  have decodes {i : Instr} {w : U32} (h : encode i = w) : decodeWord w = some i := (decodeWord_eq_some w i).2 h
  exact ⟨decodes (by decide), decodes (by decide), decodes (by decide), decodes (by decide), decodes (by decide),
    decodes (by decide), decodes (by decide), (decodeWord_eq_none _).2 (by decide)⟩

end Sys2Proof

namespace Sys2Proof.Machine

/-! ### The outcome of the control instructions (R92, R93) -/

/-- `nop` hands the loop the state it was given, which the loop advances. -/
theorem exec_nop (u : BitVec 24) (s : State) : exec (.nop u) s = .next s.advance := exec_eq_finish (.nop u) s

/-- The handler of `hlt` signals the halt and leaves the state. -/
theorem executeOne_hlt (u : BitVec 24) (s : State) : executeOne (.hlt u) s = .halts s := rfl

/-- After the halt signal the loop does not advance (40_execution_engine.md R84). -/
theorem exec_hlt (u : BitVec 24) (s : State) : exec (.hlt u) s = .next s := by
  rw [exec_eq_finish, executeOne_hlt, Flow.finish]

/-! ### What a register write and the advance leave as they were -/

theorem RestSame.refl (s : State) : RestSame s s := ⟨.refl s, rfl⟩

theorem RestSame.setReg {s t : State} (h : RestSame s t) (r : Reg) (v : Word) : RestSame s (t.setReg r v) := h

theorem RestSame.advance {s t : State} (h : RestSame s t) : RestSame s t.advance := h.setReg .pc _

/-- Settles O25: `nop` does the loop's advance alone, which is a write to `pc`. -/
theorem nopAdvancesPcOnly : Obligations.NopAdvancesPcOnly := fun u s =>
  ⟨s.advance, exec_nop u s, s.advance_pc, (RegsSameBut.of_regs rfl [.pc]).advance (List.mem_singleton.2 rfl),
    .of_ram s.advance_ram [], (RestSame.refl s).advance⟩

/-- Settles O26: the handler's `Halt`, after which the loop leaves `pc`. -/
theorem hltChangesNothing : Obligations.HltChangesNothing := fun u s => ⟨exec_hlt u s, executeOne_hlt u s⟩

end Sys2Proof.Machine
end

section
/-! SUPPORT and proofs of the data movement statements (42_data_movement.md): the result and the frame of an instruction
that writes one register, and which RAM arrays hold the two bytes of a word, by its address. -/

namespace Sys2Proof.Machine

/-! ### An instruction that writes one register (R95, R96, R98) -/

/-- The outcome of `mov_lit_reg` once its register operand is checked. -/
theorem exec_movLitReg_byte (imm : Word) (rd : Reg) (s : State) :
    exec (.movLitReg imm rd.byte) s = .next (s.setReg rd imm).advance := by
  rw [exec_eq_finish, executeOne, flowMovLitReg, withReg_byte, Flow.finish]

/-- Another destination than `pc` holds the written value after the advance. -/
theorem State.getReg_advance_setReg_same (s : State) {r : Reg} (h : r ≠ .pc) (v : Word) :
    (s.setReg r v).advance.getReg r = v := by
  rw [State.advance_other _ h, State.getReg_setReg_same]

/-- The result and the frame of every instruction that writes one register of the state it found: the loop adds its 4 to
`pc` whether or not `pc` is the destination (10_state.md R21). -/
theorem exists_next_of_exec_setReg {i : Instr} {s : State} {rd : Reg} {v : Word}
    (h : exec i s = .next (s.setReg rd v).advance) :
    ∃ t, exec i s = .next t ∧ t.getReg .pc = (if rd = .pc then v else s.getReg .pc) + 4 ∧
      (rd ≠ .pc → t.getReg rd = v) ∧ RegsSameBut s t [.pc, rd] ∧ CellsSameBut s t [] ∧ RestSame s t := by
  have hregs : RegsSameBut s (s.setReg rd v) [.pc, rd] := (RegsSameBut.of_regs rfl _).setReg (by simp) v
  exact ⟨_, h, s.getReg_pc_advance_setReg rd v, fun hrd => s.getReg_advance_setReg_same hrd v,
    hregs.advance (by simp), .of_ram rfl [], ((RestSame.refl s).setReg rd v).advance⟩

/-- Settles O27: the one register written is the destination, with the literal. -/
theorem movLitRegWritesTheLiteral : Obligations.MovLitRegWritesTheLiteral := fun imm rd s =>
  exists_next_of_exec_setReg (exec_movLitReg_byte imm rd s)

/-- Settles O28: the one register written is the destination, with what the source held before. -/
theorem movRegRegCopiesTheSource : Obligations.MovRegRegCopiesTheSource := fun rs rd u s =>
  exists_next_of_exec_setReg (exec_movRegReg_byte rs rd u s)

/-- Settles O31: the RAM device does not remap and a read of it changes nothing, so the load is the write of one register
with the word of the two cells. -/
theorem movMemRegLoadsTheWord : Obligations.MovMemRegLoadsTheWord := by
  rintro rd addr s d v h rfl
  rw [h.localAddr]
  exact exists_next_of_exec_setReg (exec_movMemReg_of_ok h.memRead rd)

/-! ### A stored word (R97) -/

/-- Settles O29: the store leaves the state after a word written to the RAM device, and the advance touches no cell of
it. -/
theorem movRegMemStoresTheWord : Obligations.MovRegMemStoresTheWord := by
  intro rs addr s d h
  have hstore := exec_movRegMem_of_ok (h.memWrite_eq (s.getReg rs))
  rw [h.localAddr]
  exact ⟨_, hstore, s.ramRead8_ramWrite16_lo addr _, s.ramRead8_ramWrite16_hi addr _, cellsSameBut_ramWrite16 s addr _,
    State.advance_pc _, (RegsSameBut.of_regs rfl [.pc]).advance (List.mem_singleton.2 rfl), (RestSame.refl s).advance⟩

/-! ### The bytes of a word in `low` and in the selected bank (20_memory.md R44, R48) -/

/-- Below 0x7FFF the byte after is in `low` too. -/
theorem State.ramRead8_add_one_low (s : State) {a : Word} (h : a.toNat < 0x7FFF) :
    s.ramRead8 (a + 1) = s.low (a.toNat + 1) := by
  have hnext : (a + 1).toNat = a.toNat + 1 := by bv_omega
  rw [s.ramRead8_low (by omega), hnext]

/-- From 0x7FFF on the byte after is in the selected bank. -/
theorem State.ramRead8_add_one_high (s : State) {a : Word} (h : 0x7FFF ≤ a.toNat) (hlast : a ≠ 0xFFFF) :
    s.ramRead8 (a + 1) = s.bank ((s.getReg .mb).toNat % 4) (a.toNat + 1 - 0x8000) := by
  have hnext : (a + 1).toNat = a.toNat + 1 := by bv_omega
  rw [s.ramRead8_high (by omega), hnext]

/-- Which RAM bytes a 16-bit access at `a` reads: both in `low`, one in `low` and one in the selected bank, or both in that
bank. -/
theorem State.low_bank_eq_ramRead8 (s : State) {a : Word} (hlast : a ≠ 0xFFFF) :
    (a.toNat < 0x7FFF → s.low a.toNat = s.ramRead8 a ∧ s.low (a.toNat + 1) = s.ramRead8 (a + 1)) ∧
      (a.toNat = 0x7FFF →
        s.low 0x7FFF = s.ramRead8 a ∧ s.bank ((s.getReg .mb).toNat % 4) 0 = s.ramRead8 (a + 1)) ∧
      (0x8000 ≤ a.toNat →
        s.bank ((s.getReg .mb).toNat % 4) (a.toNat - 0x8000) = s.ramRead8 a ∧
          s.bank ((s.getReg .mb).toNat % 4) (a.toNat + 1 - 0x8000) = s.ramRead8 (a + 1)) := by
  refine ⟨fun h => ?low, fun h => ?straddling, fun h => ?high⟩
  case low => exact ⟨(s.ramRead8_low h.le).symm, (s.ramRead8_add_one_low h).symm⟩
  case straddling =>
    rw [s.ramRead8_low h.le, s.ramRead8_add_one_high h.ge hlast, h]
    exact ⟨rfl, rfl⟩
  case high => exact ⟨(s.ramRead8_high h).symm, (s.ramRead8_add_one_high (by omega) hlast).symm⟩

/-- Settles O30: the state after the store reads the two bytes back, and where it reads them the address says; `mb` is as
before. -/
theorem storeGoesToLowOrSelectedBank : Obligations.StoreGoesToLowOrSelectedBank := by
  intro rs addr s hd hlast
  have hstore := exec_movRegMem_of_ok ((reachesRam_default hd hlast).memWrite_eq (s.getReg rs))
  have hbytes := (s.ramWrite16 addr (s.getReg rs)).advance.low_bank_eq_ramRead8 hlast
  rw [State.ramRead8_advance, State.ramRead8_advance, State.ramRead8_ramWrite16_lo, State.ramRead8_ramWrite16_hi,
    State.advance_other (r := .mb) _ (by decide)] at hbytes
  exact ⟨_, hstore, hbytes⟩

/-- Settles O32: the load writes the word of the two bytes read, and where they stand the address says. -/
theorem loadReadsLowOrSelectedBank : Obligations.LoadReadsLowOrSelectedBank := by
  intro rd addr s hd hlast hrd
  have hload := exec_movMemReg_of_ok (reachesRam_default hd hlast).memRead rd
  obtain ⟨hlow, hstraddling, hhigh⟩ := s.low_bank_eq_ramRead8 hlast
  refine ⟨_, hload, ?_⟩
  rw [State.getReg_advance_setReg_same s hrd]
  refine ⟨fun h => ?low, fun h => ?straddling, fun h => ?high⟩
  case low =>
    obtain ⟨hfirst, hsecond⟩ := hlow h
    rw [hfirst, hsecond]
  case straddling =>
    obtain ⟨hfirst, hsecond⟩ := hstraddling h
    rw [hfirst, hsecond]
  case high =>
    obtain ⟨hfirst, hsecond⟩ := hhigh h
    rw [hfirst, hsecond]

end Sys2Proof.Machine
end

section
/-! SUPPORT and proofs of the arithmetic statements (43_arithmetic.md): `addWrap` is the addition of words, and the pattern
of an exact sum is the sum of the patterns, whichever way a word is read. -/

namespace Sys2Proof.Machine

/-! ### 16-bit addition (R101) -/

theorem addWrap_toNat (a b : Word) : (addWrap a b).toNat = (a.toNat + b.toNat) % 65536 := by
  rw [addWrap, BitVec.toNat_ofNat, Nat.mod_mod]

theorem addWrap_eq_add (a b : Word) : addWrap a b = a + b :=
  BitVec.eq_of_toNat_eq (by rw [addWrap_toNat, BitVec.toNat_add])

theorem bits16_add (m n : Int) : bits16 (m + n) = bits16 m + bits16 n := BitVec.ofInt_add m n

/-- A word is the pattern of its two's-complement reading. -/
theorem bits16_signed16 (v : Word) : bits16 (signed16 v) = v := by
  apply BitVec.eq_of_toNat_eq
  have hpattern := bits16_toNat (signed16 v)
  rcases Nat.lt_or_ge v.toNat 0x8000 with hpos | hneg
  · rw [signed16_of_lt hpos] at hpattern ⊢
    omega
  · rw [signed16_of_le hneg] at hpattern ⊢
    omega

/-- Under any reading of words whose pattern is the word itself, `addWrap` is the pattern of the exact sum. -/
theorem addWrap_eq_bits16_add {read : Word → Int} (hread : ∀ v, bits16 (read v) = v) (a b : Word) :
    addWrap a b = bits16 (read a + read b) := by
  rw [bits16_add, hread, hread, addWrap_eq_add]

/-- Settles O34: both readings of a word have the word as their pattern. -/
theorem additionIsTheSameSignedAndUnsigned : Obligations.AdditionIsTheSameSignedAndUnsigned := fun a b =>
  ⟨addWrap_toNat a b, addWrap_eq_bits16_add bits16_natCast_toNat a b, addWrap_eq_bits16_add bits16_signed16 a b⟩

/-! ### The result and the frame of `add_reg_reg` (R100) -/

/-- Settles O33: the one register written is `ac`, with the sum of what the operands held before, and `ac` is not the
register that the loop advances. -/
theorem addRegRegWritesTheSumToAc : Obligations.AddRegRegWritesTheSumToAc := by
  intro ra rb u s
  obtain ⟨t, hnext, hpc, hac, hframe⟩ := exists_next_of_exec_setReg (exec_addRegReg_byte ra rb u s)
  have hsum : t.getReg .ac = addWrap (s.getReg ra) (s.getReg rb) := hac (by decide)
  exact ⟨t, hnext, by rw [hsum, addWrap_toNat], hpc, hframe⟩

end Sys2Proof.Machine
end

section
/-! SUPPORT and proofs of the exceptions' statements (60_exceptions.md): the causes of a fault in the order of R106, each
with the earlier ones passed, and the state a fault leaves, which is the state it found (R105). -/

namespace Sys2Proof.Machine

/-! ### The outcomes of `step()` (R103, R106) -/

theorem onBus_eq_faults {α : Type} {i : Instr} {s : State} {x : BusResult α} {k : α → Flow} {f : Fault} :
    onBus i s x k = .faults f ↔ (∃ a, x = .busFault a ∧ f = .busFault i s.pc a) ∨ ∃ v, x = .ok v ∧ k v = .faults f := by
  cases x <;> simp [onBus, eq_comm]

theorem Flow.finish_eq_fault {f : Flow} {r : Fault} : f.finish = .fault r ↔ f = .faults r := by
  cases f <;> simp [Flow.finish]

theorem Flow.stepReturn_outcome_eq_halted {f : Flow} {w : U32} {s : State} :
    (f.stepReturn w s).outcome = .halted ↔ ∃ t, f = .halts t := by
  cases f <;> simp [Flow.stepReturn]

theorem Flow.stepReturn_outcome_eq_faulted {f : Flow} {w : U32} {s : State} {r : Fault} :
    (f.stepReturn w s).outcome = .faulted r ↔ f = .faults r := by
  cases f <;> simp [Flow.stepReturn]

theorem decodeWord_encode (i : Instr) : decodeWord (encode i) = some i := (decodeWord_eq_some (encode i) i).2 rfl

theorem exists_badRegister_of_regsOk_eq_false {i : Instr} (h : i.regsOk = false) : ∃ b ∈ i.regFields, 15 < b.toNat := by
  obtain ⟨b, hb, hbad⟩ := List.all_eq_false.1 h
  exact ⟨b, hb, Nat.not_le.1 (of_decide_eq_false (Bool.eq_false_of_not_eq_true hbad))⟩

/-- With its register fields in range an instruction faults only on its bus access, where the 16-bit check fails. -/
theorem busFault_of_exec_eq_fault {i : Instr} {s : State} {f : Fault} (hregs : i.regsOk = true)
    (h : exec i s = .fault f) : ∃ a, f = .busFault i s.pc a ∧ check16 s.devices a = none ∧
      ((∃ rs, i = .movRegMem rs a) ∨ ∃ rd, i = .movMemReg a rd) := by
  cases i with
  | nop u => cases h
  | hlt u => cases h
  | movLitReg imm rd =>
    obtain ⟨d, rfl⟩ := exists_eq_byte_of_regsOk hregs (b := rd) (by simp [Instr.regFields])
    rw [exec_movLitReg_byte] at h
    cases h
  | movRegReg rs rd u =>
    obtain ⟨r, rfl⟩ := exists_eq_byte_of_regsOk hregs (b := rs) (by simp [Instr.regFields])
    obtain ⟨d, rfl⟩ := exists_eq_byte_of_regsOk hregs (b := rd) (by simp [Instr.regFields])
    rw [exec_movRegReg_byte] at h
    cases h
  | movRegMem rs addr =>
    obtain ⟨r, rfl⟩ := exists_eq_byte_of_regsOk hregs (b := rs) (by simp [Instr.regFields])
    rw [exec_movRegMem_byte] at h
    rcases onBus_eq_faults.1 (Flow.finish_eq_fault.1 h) with ⟨a, hbus, rfl⟩ | ⟨t, -, hok⟩
    · obtain ⟨-, hcheck, rfl⟩ := State.memWrite_eq_busFault.1 hbus
      exact ⟨a, rfl, hcheck, .inl ⟨_, rfl⟩⟩
    · cases hok
  | movMemReg addr rd =>
    obtain ⟨d, rfl⟩ := exists_eq_byte_of_regsOk hregs (b := rd) (by simp [Instr.regFields])
    rw [exec_movMemReg_byte] at h
    rcases onBus_eq_faults.1 (Flow.finish_eq_fault.1 h) with ⟨a, hbus, rfl⟩ | ⟨x, -, hok⟩
    · obtain ⟨-, hcheck, rfl⟩ := State.memRead_eq_busFault.1 hbus
      exact ⟨a, rfl, hcheck, .inr ⟨_, rfl⟩⟩
    · cases hok
  | addRegReg ra rb u =>
    obtain ⟨a, rfl⟩ := exists_eq_byte_of_regsOk hregs (b := ra) (by simp [Instr.regFields])
    obtain ⟨b, rfl⟩ := exists_eq_byte_of_regsOk hregs (b := rb) (by simp [Instr.regFields])
    rw [exec_addRegReg_byte] at h
    cases h

/-- The cause of a fault in the state `s`: one constructor per reason of R103, in the order of R106, each with the earlier
causes passed. A `step()` that faults has its cause (`FaultCause.of_hostStep`). -/
inductive FaultCause (s : State) : Fault → Prop where
  | fetchFault (hf : s.fetch = none) : FaultCause s (.fetchFault s.pc)
  | badOpcode {w : U32} (hf : s.fetch = some w) (hd : decodeWord w = none) : FaultCause s (.badOpcode w s.pc)
  | badRegister {i : Instr} (hf : s.fetch = some (encode i)) (hregs : i.regsOk = false) :
      FaultCause s (.badRegister (encode i) s.pc)
  | busFault {i : Instr} {a : Word} (hf : s.fetch = some (encode i)) (hregs : i.regsOk = true)
      (hcheck : check16 s.devices a = none) (hform : (∃ rs, i = .movRegMem rs a) ∨ ∃ rd, i = .movMemReg a rd) :
      FaultCause s (.busFault i s.pc a)

theorem FaultCause.of_executeOne {s : State} {i : Instr} {f : Fault} (hf : s.fetch = some (encode i))
    (h : executeOne i s = .faults f) : FaultCause s f := by
  cases hregs : i.regsOk with
  | false =>
    obtain ⟨b, hb, hbad⟩ := exists_badRegister_of_regsOk_eq_false hregs
    rw [executeOne_of_badRegister hb hbad] at h
    cases h
    exact .badRegister hf hregs
  | true =>
    have hexec : exec i s = .fault f := (exec_eq_finish i s).trans (Flow.finish_eq_fault.2 h)
    obtain ⟨a, rfl, hcheck, hform⟩ := busFault_of_exec_eq_fault hregs hexec
    exact .busFault hf hregs hcheck hform

theorem FaultCause.of_hostStep {s : State} {f : Fault} (h : s.hostStep.outcome = .faulted f) : FaultCause s f := by
  cases hf : s.fetch with
  | none =>
    rw [hostStep_of_fetch_eq_none hf] at h
    cases h
    exact .fetchFault hf
  | some w =>
    cases hd : decodeWord w with
    | none =>
      rw [hostStep_of_decodeWord_eq_none hf hd] at h
      cases h
      exact .badOpcode hf hd
    | some i =>
      rw [hostStep_of_decodeWord hf hd] at h
      obtain rfl := (decodeWord_eq_some w i).1 hd
      exact .of_executeOne hf (Flow.stepReturn_outcome_eq_faulted.1 h)

/-- `Halt` comes from a fetched `hlt` only (41_control.md R93). -/
theorem exists_hlt_of_hostStep_halted {s : State} (h : s.hostStep.outcome = .halted) :
    ∃ w u, s.fetch = some w ∧ decodeWord w = some (.hlt u) := by
  cases hf : s.fetch with
  | none =>
    rw [hostStep_of_fetch_eq_none hf] at h
    cases h
  | some w =>
    cases hd : decodeWord w with
    | none =>
      rw [hostStep_of_decodeWord_eq_none hf hd] at h
      cases h
    | some i =>
      rw [hostStep_of_decodeWord hf hd] at h
      obtain ⟨t, ht⟩ := Flow.stepReturn_outcome_eq_halted.1 h
      obtain ⟨u, rfl⟩ := Instr.opcode_eq_hlt.1 (executeOne_halts_cases ht).1
      exact ⟨w, u, rfl, hd⟩

/-- Settles O41, by the cause that each fault has. -/
theorem outcomesHaveTheirCauses : Obligations.OutcomesHaveTheirCauses := by
  refine fun s => ⟨exists_hlt_of_hostStep_halted, fun p h => ?fetchFault, fun w p h => ?badOpcode,
    fun w p h => ?badRegister, fun i p a h => ?busFault⟩
  case fetchFault =>
    cases FaultCause.of_hostStep h with
    | fetchFault hf => exact ⟨rfl, hf⟩
  case badOpcode =>
    cases FaultCause.of_hostStep h with
    | badOpcode hf hd => exact ⟨rfl, hf, hd⟩
  case badRegister =>
    cases FaultCause.of_hostStep h with
    | badRegister hf hregs => exact ⟨rfl, hf, _, decodeWord_encode _, hregs⟩
  case busFault =>
    cases FaultCause.of_hostStep h with
    | busFault hf hregs hcheck hform => exact ⟨rfl, hf, hregs, hcheck, hform⟩

/-! ### A fault changes no state (R105, R108) -/

/-- The state after a handler's fault is the state the instruction found, whatever the reason is. -/
theorem Flow.stepReturn_after_of_faulted {f : Flow} {w : U32} {s : State} {r : Fault}
    (h : (f.stepReturn w s).outcome = .faulted r) : (f.stepReturn w s).after = s := by
  rw [Flow.stepReturn_outcome_eq_faulted.1 h]
  rfl

theorem hostStep_after_of_faulted {s : State} {r : Fault} (h : s.hostStep.outcome = .faulted r) :
    s.hostStep.after = s := by
  cases hf : s.fetch with
  | none => rw [hostStep_of_fetch_eq_none hf]
  | some w =>
    cases hd : decodeWord w with
    | none => rw [hostStep_of_decodeWord_eq_none hf hd]
    | some i =>
      rw [hostStep_of_decodeWord hf hd] at h ⊢
      exact Flow.stepReturn_after_of_faulted h

/-- Settles O42: the next `step()` starts from the state that this one started from. -/
theorem faultChangesNoState : Obligations.FaultChangesNoState := fun _ _ h =>
  have hafter := hostStep_after_of_faulted h
  ⟨hafter, congrArg State.hostStep hafter⟩

end Sys2Proof.Machine
end

section
/-! SUPPORT and proofs of the statements of 70_reset_and_hazards.md: `reset()` and `load_program` in either order, the
next access after a write to `mb`, and the ROM image, which the loader reads as the writer wrote it. -/

namespace Sys2Proof.Machine

/-! ### `reset()` and `load_program` (R119) -/

/-- A session with another program buffer; everything else it holds, registers or none, is as it was. -/
def Session.withProgram (bytes : List Byte) : Session → Session
  | .fresh _ ram devices => .fresh bytes ram devices
  | .live s => .live { s with program := bytes }

/-- Whether a load is refused depends on the bytes alone, before the first reset as after it (40_execution_engine.md
R89). -/
theorem Session.loadProgram_eq (x : Session) (addr : Word) (bytes : List Byte) :
    x.loadProgram addr bytes =
      if programAccepted bytes then .ok (x.withProgram bytes) else .error .programInvariantViolation := by
  cases x with
  | fresh program ram devices => rfl
  | live s =>
    rw [Session.loadProgram, State.loadProgram]
    split <;> rfl

/-- `reset()` and the installing of a program touch disjoint parts of a session. -/
theorem Session.reset_withProgram (bytes : List Byte) (x : Session) :
    (x.withProgram bytes).reset = x.reset.withProgram bytes := by
  cases x <;> rfl

/-- Settles O14, by whether the load is refused. -/
theorem resetAndLoadCommute : Obligations.ResetAndLoadCommute := by
  intro x addr bytes
  rw [Session.loadProgram_eq, Session.loadProgram_eq]
  split
  case isTrue => exact congrArg Except.ok (x.reset_withProgram bytes).symm
  case isFalse => rfl

/-! ### The next access after a write to `mb` (R125) -/

/-- A 16-bit access that reaches the RAM device is not at the last address. -/
theorem ReachesRam.ne_last {s : State} {a : Word} {d : Device} (h : ReachesRam s a d) : a ≠ 0xFFFF := by
  obtain ⟨-, hcheck, -⟩ := h
  intro hlast
  rw [(check16_of_found (check16_findDevice hcheck)).2 (.inl hlast)] at hcheck
  cases hcheck

/-- Where a 16-bit access reaches the RAM device, the byte at its address is that device's too. -/
theorem ReachesRam.findDevice_eq_head {s : State} {a : Word} {d : Device} (h : ReachesRam s a d) :
    findDevice s.devices a = s.devices.head? := by
  obtain ⟨-, hcheck, hhead⟩ := h
  rw [check16_findDevice hcheck, hhead]

/-- In the high half both bytes of a 16-bit access on the RAM device are in the selected bank (20_memory.md R44). -/
theorem ReachesRam.bank_eq_ramRead8 {s : State} {a : Word} {d : Device} (h : ReachesRam s a d)
    (hhigh : 0x8000 ≤ a.toNat) :
    s.bank ((s.getReg .mb).toNat % 4) (a.toNat - 0x8000) = s.ramRead8 a ∧
      s.bank ((s.getReg .mb).toNat % 4) (a.toNat + 1 - 0x8000) = s.ramRead8 (a + 1) := by
  obtain ⟨-, -, hbank⟩ := s.low_bank_eq_ramRead8 h.ne_last
  exact hbank hhigh

/-- The register written, after the advance: `pc` has the loop's 4 added (10_state.md R21). -/
theorem State.getReg_advance_setReg (s : State) (r : Reg) (v : Word) :
    (s.setReg r v).advance.getReg r = v + if r = .pc then 4 else 0 := by
  split
  case isTrue h =>
    subst h
    rw [State.advance_pc, State.getReg_setReg_same]
  case isFalse h => exact (s.getReg_advance_setReg_same h v).trans (BitVec.add_zero v).symm

/-- A `mov_mem_reg` in the high half loads the word of the selected bank. -/
theorem ReachesRam.exec_movMemReg_high {s : State} {a : Word} {d : Device} (h : ReachesRam s a d)
    (hhigh : 0x8000 ≤ a.toNat) (rd : Reg) :
    ∃ u, exec (.movMemReg a rd.byte) s = .next u ∧
      u.getReg rd = word (s.bank ((s.getReg .mb).toNat % 4) (a.toNat - 0x8000))
        (s.bank ((s.getReg .mb).toNat % 4) (a.toNat + 1 - 0x8000)) + if rd = .pc then 4 else 0 := by
  obtain ⟨hfirst, hsecond⟩ := h.bank_eq_ramRead8 hhigh
  rw [hfirst, hsecond]
  exact ⟨_, exec_movMemReg_of_ok h.memRead rd, s.getReg_advance_setReg rd _⟩

/-- A `mov_reg_mem` in the high half stores into the selected bank. -/
theorem ReachesRam.exec_movRegMem_high {s : State} {a : Word} {d : Device} (h : ReachesRam s a d)
    (hhigh : 0x8000 ≤ a.toNat) (rs : Reg) :
    ∃ u, exec (.movRegMem rs.byte a) s = .next u ∧
      u.bank ((s.getReg .mb).toNat % 4) (a.toNat - 0x8000) = lo (s.getReg rs) ∧
      u.bank ((s.getReg .mb).toNat % 4) (a.toNat + 1 - 0x8000) = hi (s.getReg rs) := by
  have hstored : ReachesRam (s.ramWrite16 a (s.getReg rs)) a d := h.congr rfl
  obtain ⟨hfirst, hsecond⟩ := hstored.bank_eq_ramRead8 hhigh
  rw [State.ramRead8_ramWrite16_lo] at hfirst
  rw [State.ramRead8_ramWrite16_hi] at hsecond
  exact ⟨_, exec_movRegMem_of_ok (h.memWrite_eq _), hfirst, hsecond⟩

/-- `Read8` in the high half answers the byte of the selected bank. -/
theorem ReachesRam.read8_high {s : State} {a : Word} {d : Device} (h : ReachesRam s a d) (hhigh : 0x8000 ≤ a.toNat) :
    s.read8 a = .ok (s.bank ((s.getReg .mb).toNat % 4) (a.toNat - 0x8000), s) := by
  rw [State.read8_of_head h.1 h.findDevice_eq_head, s.ramRead8_high hhigh]

/-- `Write8` in the high half writes the byte of the selected bank. -/
theorem ReachesRam.write8_high {s : State} {a : Word} {d : Device} (h : ReachesRam s a d) (hhigh : 0x8000 ≤ a.toNat)
    (b : Byte) :
    ∃ u, s.write8 a b = .ok u ∧ u.bank ((s.getReg .mb).toNat % 4) (a.toNat - 0x8000) = b := by
  have hbyte := (s.ramWrite8 a b).ramRead8_high hhigh
  rw [State.ramRead8_ramWrite8_same] at hbyte
  exact ⟨_, State.write8_of_head h.1 h.findDevice_eq_head b, hbyte.symm⟩

/-- A 16-bit read changes no RAM byte, whichever device answers it (20_memory.md R49). -/
theorem memRead_ram {s : State} {a : Word} {x : Word × State} (h : s.memRead a = .ok x) : x.2.ram = s.ram := by
  obtain ⟨d, -, -, rfl⟩ := State.memRead_eq_ok.1 h
  obtain ⟨-, hram, -⟩ := s.deviceRead16_frame d (d.localAddr a)
  exact hram

/-- The instruction `w`, run in `s`, is one of the three writers of `mb`, and `k` is the value it writes. -/
def WritesMb (s : State) (w : Instr) (k : Word) : Prop :=
  w = .movLitReg k Reg.mb.byte ∨ (∃ rs unused, w = .movRegReg (Reg.byte rs) Reg.mb.byte unused ∧ k = s.getReg rs) ∨
    ∃ a u, w = .movMemReg a Reg.mb.byte ∧ s.memRead (effectiveAddress a) = .ok (k, u)

/-- Each writer of `mb` leaves the RAM and the device list as they were and writes `mb` last, before the advance. -/
theorem WritesMb.exec {s : State} {w : Instr} {k : Word} (hw : WritesMb s w k) :
    ∃ u : State, exec w s = .next (u.setReg .mb k).advance ∧ u.ram = s.ram ∧ u.devices = s.devices := by
  rcases hw with rfl | ⟨rs, unused, rfl, rfl⟩ | ⟨a, u, rfl, hread⟩
  · exact ⟨s, exec_movLitReg_byte k .mb s, rfl, rfl⟩
  · exact ⟨s, exec_movRegReg_byte rs .mb unused s, rfl, rfl⟩
  · obtain ⟨-, -, hdevices⟩ := memRead_fixedSame hread
    exact ⟨u, exec_movMemReg_of_ok hread .mb, memRead_ram hread, hdevices⟩

/-- Settles O24: the writer leaves `mb` at `k` over the same RAM, and each next access selects its bank by that `mb`. -/
theorem bankSwitchTakesEffectAtOnce : Obligations.BankSwitchTakesEffectAtOnce := by
  intro s w k addr d h hhigh hw
  obtain ⟨u, hexec, hram, hdevices⟩ := WritesMb.exec hw
  have hmb : (u.setReg .mb k).advance.getReg .mb = k := u.getReg_advance_setReg_same (by decide) k
  refine ⟨_, hexec, hmb, ?_⟩
  have ht : ReachesRam (u.setReg .mb k).advance addr d := h.congr hdevices
  have hbank (b i : Nat) : (u.setReg .mb k).advance.bank b i = s.bank b i := State.bank_congr hram b i
  have hload := ht.exec_movMemReg_high hhigh
  have hstore := ht.exec_movRegMem_high hhigh
  have hread := ht.read8_high hhigh
  have hwrite := ht.write8_high hhigh
  simp only [hmb, hbank] at hload hstore hread hwrite
  exact ⟨hload, hstore, hread, hwrite⟩

/-! ### Little-endian fields of a file (R120) -/

/-- The byte `k` places after an offset is byte `k` of what the file holds from that offset on. -/
theorem getD_add_of_drop {file bytes : List Byte} {off : Nat} (h : file.drop off = bytes) (k : Nat) :
    file.getD (off + k) 0 = bytes.getD k 0 := by
  rw [← h, List.getD_eq_getElem?_getD, List.getD_eq_getElem?_getD, List.getElem?_drop]

theorem le16_of_drop {file rest : List Byte} {off : Nat} {v : Word} (h : file.drop off = le16Bytes v ++ rest) :
    le16 file off = v := by
  calc le16 file off
      _ = word (lo v) (hi v) := congrArg₂ word (getD_add_of_drop h 0) (getD_add_of_drop h 1)
      _ = v := word_lo_hi v

theorem le32_of_drop {file rest : List Byte} {off : Nat} {v : U32} (h : file.drop off = le32Bytes v ++ rest) :
    le32 file off = v := by
  have hfirst : file.getD off 0 = (Record.ofU32 v).opcode := getD_add_of_drop h 0
  rw [le32, hfirst, getD_add_of_drop h 1, getD_add_of_drop h 2, getD_add_of_drop h 3]
  exact Record.toU32_ofU32 v

/-! ### The directory (R121) -/

/-- The directory entry that the loader reads where the writer wrote `e` (R121). -/
def RegionEntry.written (e : RegionEntry) : RegionEntry := { e with reserved := 0 }

theorem RegionEntry.bytes_length (e : RegionEntry) : e.bytes.length = 16 := rfl

/-- Where an entry's bytes stand in a file, the loader reads the entry: each field lies at its own offset. -/
theorem RegionEntry.parse_of_drop {file rest : List Byte} {off : Nat} {e : RegionEntry}
    (h : file.drop off = e.bytes ++ rest) : RegionEntry.parse file off = e.written := by
  have hfield (k : Nat) : file.drop (off + k) = (e.bytes ++ rest).drop k := by rw [← List.drop_drop, h]
  rw [RegionEntry.parse, le32_of_drop (v := e.id) h, le32_of_drop (v := e.offset) (hfield 4),
    le16_of_drop (v := e.size) (hfield 8), le16_of_drop (v := e.loadat) (hfield 10),
    le16_of_drop (v := e.bank) (hfield 12), le16_of_drop (v := 0) (hfield 14), RegionEntry.written]

/-- Where the bytes of a list of entries stand in a file, the loader reads the entries, 16 bytes apart. -/
theorem map_parse_of_drop {file rest : List Byte} {entries : List RegionEntry} {off : Nat}
    (h : file.drop off = entries.flatMap RegionEntry.bytes ++ rest) :
    ((List.range entries.length).map fun i => RegionEntry.parse file (off + 16 * i)) =
      entries.map RegionEntry.written := by
  induction entries generalizing off with
  | nil => rfl
  | cons e entries ih =>
    rw [List.flatMap_cons, List.append_assoc] at h
    have hnext : file.drop (off + 16) = entries.flatMap RegionEntry.bytes ++ rest := by
      rw [← List.drop_drop, h, List.drop_left' e.bytes_length]
    have hoff (i : Nat) : off + 16 * (i + 1) = off + 16 + 16 * i := by omega
    simp only [List.length_cons, List.range_succ_eq_map, List.map_cons, List.map_map, Function.comp_def,
      Nat.succ_eq_add_one, hoff, ih hnext, Nat.mul_zero, Nat.add_zero, RegionEntry.parse_of_drop h]

theorem directory_length (entries : List RegionEntry) :
    (entries.flatMap RegionEntry.bytes).length = 16 * entries.length := by
  induction entries with
  | nil => rfl
  | cons e entries ih =>
    rw [List.flatMap_cons, List.length_append, e.bytes_length, ih, List.length_cons]
    omega

/-! ### `load` (R122) -/

/-- The header of a ROM file is whole, has the magic, and counts no more entries than the file holds. -/
structure RomHeaderOk (file : List Byte) : Prop where
  header : 8 ≤ file.length
  magic : file.take 4 = romMagic
  directory : 8 + 16 * (le16 file 6).toNat ≤ file.length

/-- A file with such a header loads: its version bytes, and its entries from offset 8 on. -/
theorem Rom.load_of_headerOk {file : List Byte} (h : RomHeaderOk file) :
    Rom.load file = .ok ⟨file, file.getD 4 0, file.getD 5 0,
      (List.range (le16 file 6).toNat).map fun i => RegionEntry.parse file (8 + 16 * i)⟩ := by
  rw [Rom.load, if_neg (Nat.not_lt.2 h.header), if_neg (not_not.2 h.magic), if_neg (Nat.not_lt.2 h.directory)]

theorem Rom.load_eq_malformed_iff (file : List Byte) :
    Rom.load file = .error .malformedRom ↔
      file.length < 8 ∨ file.take 4 ≠ romMagic ∨ file.length < 8 + 16 * (le16 file 6).toNat := by
  unfold Rom.load
  split_ifs with hheader hmagic hdirectory
  · exact iff_of_true rfl (.inl hheader)
  · exact iff_of_true rfl (.inr (.inl hmagic))
  · exact iff_of_true rfl (.inr (.inr hdirectory))
  · exact iff_of_false nofun (not_or.2 ⟨hheader, not_or.2 ⟨hmagic, hdirectory⟩⟩)

/-- Settles O52: the region count is the little-endian word at offset 6. -/
theorem romLoadRefusesMalformedFiles : Obligations.RomLoadRefusesMalformedFiles := by
  intro file
  rw [Rom.load_eq_malformed_iff, le16, word_toNat, romMagic]

/-! ### `get_region` (R123) -/

theorem Rom.getRegion_of_notFound {rom : Rom} {id : U32} (h : ∀ e ∈ rom.entries, e.id ≠ id) :
    rom.getRegion id = .error .unknownRegion := by
  have hfind : (rom.entries.find? fun e => decide (e.id = id)) = none :=
    List.find?_eq_none.2 fun e he => by simpa using h e he
  rw [Rom.getRegion, hfind]

/-- What the first entry with the id answers: the file's bytes from its offset on, if the file has them all. -/
theorem Rom.getRegion_of_first {rom : Rom} {before after : List RegionEntry} {e : RegionEntry}
    (hentries : rom.entries = before ++ e :: after) (hbefore : ∀ x ∈ before, x.id ≠ e.id) :
    rom.getRegion e.id =
      if rom.file.length < e.offset.toNat + e.size.toNat then .error .malformedRom
      else .ok ((rom.file.drop e.offset.toNat).take e.size.toNat) := by
  have hfind : (rom.entries.find? fun x => decide (x.id = e.id)) = some e :=
    List.find?_eq_some_iff_append.2 ⟨decide_eq_true rfl, before, after, hentries, by simpa using hbefore⟩
  rw [Rom.getRegion, hfind]

/-- Settles O53: the entry before which no other has the id is the one the search finds. -/
theorem getRegionTakesTheFirstMatch : Obligations.GetRegionTakesTheFirstMatch := by
  intro rom id
  refine ⟨Rom.getRegion_of_notFound, ?_⟩
  rintro before after e hentries rfl hbefore
  rw [Rom.getRegion_of_first hentries hbefore]
  refine ⟨fun hpast => if_pos hpast, fun pre bytes post hfile hpre hbytes => ?_⟩
  have hlength : e.offset.toNat + e.size.toNat ≤ rom.file.length := by
    rw [hfile, List.length_append, List.length_append, hpre, hbytes]
    omega
  rw [if_neg (Nat.not_lt.2 hlength), hfile, List.append_assoc, List.drop_left' hpre, List.take_left' hbytes]

/-! ### A written file loads back (R120 to R122) -/

/-- From offset 8 on a written file holds its directory and then its payloads. -/
theorem romImage_drop_header (major minor : Byte) (entries : List RegionEntry) (payloads : List Byte) :
    (romImage major minor entries payloads).drop 8 = entries.flatMap RegionEntry.bytes ++ payloads := rfl

theorem romImage_length (major minor : Byte) (entries : List RegionEntry) (payloads : List Byte) :
    (romImage major minor entries payloads).length = 8 + 16 * entries.length + payloads.length := by
  simp only [romImage, romMagic, le16Bytes, List.length_append, List.length_cons, List.length_nil, directory_length]

/-- The count that the loader reads at offset 6 is the number of entries written, which fits its 16 bits. -/
theorem le16_romImage_toNat (major minor : Byte) {entries : List RegionEntry} (payloads : List Byte)
    (h : entries.length ≤ 65535) : (le16 (romImage major minor entries payloads) 6).toNat = entries.length := by
  have hcount : le16 (romImage major minor entries payloads) 6 = BitVec.ofNat 16 entries.length :=
    le16_of_drop (rest := entries.flatMap RegionEntry.bytes ++ payloads) rfl
  rw [hcount, BitVec.toNat_ofNat]
  exact Nat.mod_eq_of_lt (by omega)

theorem romHeaderOk_romImage (major minor : Byte) {entries : List RegionEntry} (payloads : List Byte)
    (h : entries.length ≤ 65535) : RomHeaderOk (romImage major minor entries payloads) where
  header := by rw [romImage_length]; omega
  magic := rfl
  directory := by rw [le16_romImage_toNat major minor payloads h, romImage_length]; omega

/-- Settles O54: the header of a written file is in order, and its directory is read entry by entry. -/
theorem romImageLoadsBack : Obligations.RomImageLoadsBack := by
  intro major minor entries payloads h
  have hdirectory := map_parse_of_drop (romImage_drop_header major minor entries payloads)
  rw [Rom.load_of_headerOk (romHeaderOk_romImage major minor payloads h), le16_romImage_toNat major minor payloads h,
    hdirectory]
  rfl

end Sys2Proof.Machine
end
